-- ==== Sys2Proof/Word.lean ====
section
/-! DEFINITION. The word types of the block: `DATAW` = 8 and `PCW` = 16 (`00_scope.md` R1, R3). -/

namespace Sys2Proof

/-- A data cell: a register cell of the file or a memory byte (R1 `DATAW`, R3, R46). -/
abbrev Byte := BitVec 8

/-- A 16-bit address, and the program counter's contents (R1 `PCW`, R15). -/
abbrev Address := BitVec 16

end Sys2Proof
end

