-- ==== Sys2Proof/Config.lean ====
section
/-! DEFINITION. The parameters of the core (`00_scope.md` R1) and the types an instruction
definition is made of (`30_encoding.md` R75). The rows of `ITABLE` themselves stand in
`Sys2Proof/Decode.lean`. -/

namespace Sys2Proof

/-- The addressing-mode tag of a definition: the eight rows of R103. -/
inductive Mode where
  | immediate
  | zeropage
  | zeropageX
  | absolute
  | absoluteX
  | absoluteY
  | indirectX
  | indirectY
deriving DecidableEq, Repr

/-- The behavior of a definition: the three operations of the block (R75, R101). -/
inductive Operation where
  | adc
  | and
  | jmp
deriving DecidableEq, Repr

/-- An instruction definition (R75): the immutable record a row of the table is. The mnemonic is a
display name; no rule depends on it. -/
structure InstrDef where
  opcode   : Byte
  mnemonic : String
  mode     : Mode
  cycles   : Nat
  length   : Nat
  behavior : Operation
deriving DecidableEq, Repr

/-- The instruction table as the list of its definitions (R33, R77: built once, never mutated). -/
abbrev InstrTable := List InstrDef

/-- The two readings of the high byte of an `indirect,Y` pointer at 0xFF (R1, R112). -/
inductive PtrHiWrap where
  | zp
  | linear
deriving DecidableEq, Repr

/-- `MEMSIZE` (R1, R2, D1): this hardware's memory capacity in bytes. -/
def Config.memSize : Nat := 65536

/-- `PTR_HI_WRAP` (R1, R112). DESIGN CHOICE of the spec (D9, log 9): this hardware takes `zp`. -/
def Config.ptrHiWrap : PtrHiWrap := .zp

/-- `M0` (R1, R37, D13): the launch image, any value; what the byte at an address that memory does not
list reads as (U4: unknown, but the same at every read). A free value: nothing in Lean can say what it
is, so no byte that the host did not write is assumed to be 0 or anything else (log 3). -/
opaque Config.M0 : Nat → Byte

/-- The Clock's two quotients for a tick frequency of 0, of which the spec says nothing (R225). A
free value; no rule of the block reads it (log 20). -/
opaque Config.clockQuotientByZero : Nat → Nat

end Sys2Proof
end

