-- ==== Sys2Proof/Syntax.lean ====
section
/-! DEFINITION. The instructions: one constructor per row of `spec/opcode_table.json`
(`30_encoding.md` R80), with the operand fields of R74. -/

namespace Sys2Proof

/-- The seventeen instructions. `d8` is the byte after the opcode; `abs16` is the little-endian
16-bit value of the two bytes after it (R70, R74). Every operand value is legal (R85). -/
inductive Instr where
  /-- `ADC #$nn`, R131 -/
  | adcImm (d8 : Byte)
  /-- `ADC $nn`, R132 -/
  | adcZp (d8 : Byte)
  /-- `ADC $nn,X`, R133 -/
  | adcZpX (d8 : Byte)
  /-- `ADC $hhll`, R134 -/
  | adcAbs (abs16 : Address)
  /-- `ADC $hhll,X`, R135 -/
  | adcAbsX (abs16 : Address)
  /-- `ADC $hhll,Y`, R136 -/
  | adcAbsY (abs16 : Address)
  /-- `ADC ($nn,X)`, R137 -/
  | adcIndX (d8 : Byte)
  /-- `ADC ($nn),Y`, R138 -/
  | adcIndY (d8 : Byte)
  /-- `AND #$nn`, R151 -/
  | andImm (d8 : Byte)
  /-- `AND $nn`, R152 -/
  | andZp (d8 : Byte)
  /-- `AND $nn,X`, R153 -/
  | andZpX (d8 : Byte)
  /-- `AND $hhll`, R154 -/
  | andAbs (abs16 : Address)
  /-- `AND $hhll,X`, R155 -/
  | andAbsX (abs16 : Address)
  /-- `AND $hhll,Y`, R156 -/
  | andAbsY (abs16 : Address)
  /-- `AND ($nn,X)`, R157 -/
  | andIndX (d8 : Byte)
  /-- `AND ($nn),Y`, R158 -/
  | andIndY (d8 : Byte)
  /-- `JMP $hhll`, R170 -/
  | jmpAbs (abs16 : Address)
deriving DecidableEq, Repr

end Sys2Proof
end

