-- ==== Sys2Proof/WellFormed.lean ====
section
/-! DEFINITION. Well-formedness: of an instruction table (`30_encoding.md` R72, R76, R101) and of an
instruction against a table. The operand fields need no check: their types admit exactly the values
the encoding has, and all of them are legal (R85). -/

namespace Sys2Proof

/-- How many operand bytes a mode reads after the opcode (R70): one for F2, two for F3. -/
def Mode.operandBytes : Mode → Nat
  | .immediate => 1
  | .zeropage  => 1
  | .zeropageX => 1
  | .absolute  => 2
  | .absoluteX => 2
  | .absoluteY => 2
  | .indirectX => 1
  | .indirectY => 1

/-- The pairs (operation, mode) that have a behavior (R101): ADC and AND in all eight modes, JMP in
`absolute` only. -/
def Operation.hasMode : Operation → Mode → Bool
  | .adc, _ => true
  | .and, _ => true
  | .jmp, m => m == .absolute

/-- R76: exactly one definition per opcode value. -/
def InstrTable.opcodesDistinct : InstrTable → Bool
  | [] => true
  | d :: ds => ds.all (fun e => e.opcode != d.opcode) && InstrTable.opcodesDistinct ds

/-- R72: a definition's length is one plus the number of operand bytes its mode reads. -/
def InstrDef.lengthFits (d : InstrDef) : Bool :=
  d.length == 1 + d.mode.operandBytes

/-- R101: a definition's (operation, mode) pair is one of the listed pairs. -/
def InstrDef.pairListed (d : InstrDef) : Bool :=
  d.behavior.hasMode d.mode

/-- A table this hardware can be built with: R76, R72, R101. -/
def InstrTable.wf (t : InstrTable) : Bool :=
  t.opcodesDistinct && t.all InstrDef.lengthFits && t.all InstrDef.pairListed

/-- The operation of an instruction (R101). -/
def Instr.operation : Instr → Operation
  | .adcImm _  => .adc
  | .adcZp _   => .adc
  | .adcZpX _  => .adc
  | .adcAbs _  => .adc
  | .adcAbsX _ => .adc
  | .adcAbsY _ => .adc
  | .adcIndX _ => .adc
  | .adcIndY _ => .adc
  | .andImm _  => .and
  | .andZp _   => .and
  | .andZpX _  => .and
  | .andAbs _  => .and
  | .andAbsX _ => .and
  | .andAbsY _ => .and
  | .andIndX _ => .and
  | .andIndY _ => .and
  | .jmpAbs _  => .jmp

/-- The addressing mode of an instruction (R101). -/
def Instr.mode : Instr → Mode
  | .adcImm _  => .immediate
  | .adcZp _   => .zeropage
  | .adcZpX _  => .zeropageX
  | .adcAbs _  => .absolute
  | .adcAbsX _ => .absoluteX
  | .adcAbsY _ => .absoluteY
  | .adcIndX _ => .indirectX
  | .adcIndY _ => .indirectY
  | .andImm _  => .immediate
  | .andZp _   => .zeropage
  | .andZpX _  => .zeropageX
  | .andAbs _  => .absolute
  | .andAbsX _ => .absoluteX
  | .andAbsY _ => .absoluteY
  | .andIndX _ => .indirectX
  | .andIndY _ => .indirectY
  | .jmpAbs _  => .absolute

/-- An instruction is well formed for a table that defines its (operation, mode) pair (R84, R101). -/
def Instr.wf (t : InstrTable) (i : Instr) : Bool :=
  t.any (fun d => d.behavior == i.operation && d.mode == i.mode)

end Sys2Proof
end

