-- ==== Sys2Proof/Decode.lean ====
section
/-! DEFINITION. The instruction table `ITABLE` (`30_encoding.md` R80), its construction (R76), the
decoder, total on any bytes and rejecting by name (R71, R73, R84), and after it the encoder (R70).
The opcode bytes, mnemonics and cycle costs are the spec's decisions D2, D4, D6, marked there as
general knowledge (PRESUMED, logs 5, 6); the lengths are D5 (DEDUCED, log 7). -/

namespace Sys2Proof

/-! ### The rows of R80 -/

def rowAdcImm  : InstrDef := ⟨0x69, "ADC", .immediate, 2, 2, .adc⟩
def rowAdcZp   : InstrDef := ⟨0x65, "ADC", .zeropage,  3, 2, .adc⟩
def rowAdcZpX  : InstrDef := ⟨0x75, "ADC", .zeropageX, 4, 2, .adc⟩
def rowAdcAbs  : InstrDef := ⟨0x6D, "ADC", .absolute,  4, 3, .adc⟩
def rowAdcAbsX : InstrDef := ⟨0x7D, "ADC", .absoluteX, 4, 3, .adc⟩
def rowAdcAbsY : InstrDef := ⟨0x79, "ADC", .absoluteY, 4, 3, .adc⟩
def rowAdcIndX : InstrDef := ⟨0x61, "ADC", .indirectX, 6, 2, .adc⟩
def rowAdcIndY : InstrDef := ⟨0x71, "ADC", .indirectY, 5, 2, .adc⟩
def rowAndImm  : InstrDef := ⟨0x29, "AND", .immediate, 2, 2, .and⟩
def rowAndZp   : InstrDef := ⟨0x25, "AND", .zeropage,  3, 2, .and⟩
def rowAndZpX  : InstrDef := ⟨0x35, "AND", .zeropageX, 4, 2, .and⟩
def rowAndAbs  : InstrDef := ⟨0x2D, "AND", .absolute,  4, 3, .and⟩
def rowAndAbsX : InstrDef := ⟨0x3D, "AND", .absoluteX, 4, 3, .and⟩
def rowAndAbsY : InstrDef := ⟨0x39, "AND", .absoluteY, 4, 3, .and⟩
def rowAndIndX : InstrDef := ⟨0x21, "AND", .indirectX, 6, 2, .and⟩
def rowAndIndY : InstrDef := ⟨0x31, "AND", .indirectY, 5, 2, .and⟩
def rowJmpAbs  : InstrDef := ⟨0x4C, "JMP", .absolute,  3, 3, .jmp⟩

/-- The definitions of this hardware, in R80's order. -/
def definitions : InstrTable :=
  [rowAdcImm, rowAdcZp, rowAdcZpX, rowAdcAbs, rowAdcAbsX, rowAdcAbsY, rowAdcIndX, rowAdcIndY] ++
  [rowAndImm, rowAndZp, rowAndZpX, rowAndAbs, rowAndAbsX, rowAndAbsY, rowAndIndX, rowAndIndY] ++
  [rowJmpAbs]

/-- The table lookup: a table is queried only by opcode value (R71, R77). -/
def InstrTable.lookup (t : InstrTable) (op : Byte) : Option InstrDef :=
  t.find? (fun d => d.opcode == op)

/-- `ITABLE(op)` (R4, R80): the definition of an opcode byte, or none. -/
def itable (op : Byte) : Option InstrDef :=
  definitions.lookup op

/-- R76: registering a definition whose opcode already has one is a fatal configuration error. -/
def InstrTable.register (t : InstrTable) (d : InstrDef) : Option InstrTable :=
  match t.lookup d.opcode with
  | some _ => none
  | none => some (t ++ [d])

/-- R76, R186: building the table from a list of registrations. `none` is the configuration error:
such a list denotes no table and no machine. -/
def InstrTable.build (ds : List InstrDef) : Option InstrTable :=
  ds.foldlM InstrTable.register []

/-- The definition of an instruction: the row of R80 with its operation and mode. -/
def Instr.row : Instr → InstrDef
  | .adcImm _  => rowAdcImm
  | .adcZp _   => rowAdcZp
  | .adcZpX _  => rowAdcZpX
  | .adcAbs _  => rowAdcAbs
  | .adcAbsX _ => rowAdcAbsX
  | .adcAbsY _ => rowAdcAbsY
  | .adcIndX _ => rowAdcIndX
  | .adcIndY _ => rowAdcIndY
  | .andImm _  => rowAndImm
  | .andZp _   => rowAndZp
  | .andZpX _  => rowAndZpX
  | .andAbs _  => rowAndAbs
  | .andAbsX _ => rowAndAbsX
  | .andAbsY _ => rowAndAbsY
  | .andIndX _ => rowAndIndX
  | .andIndY _ => rowAndIndY
  | .jmpAbs _  => rowJmpAbs

/-! ### Decoding -/

/-- The 16-bit value of two bytes (R48, R74): `lo + 256 * hi`, little-endian. -/
def assembleWord (lo hi : Byte) : Address :=
  BitVec.ofNat 16 (hi.toNat * 256 + lo.toNat)

/-- Why a sequence of bytes is no instruction. -/
inductive DecodeReject where
  /-- there is no opcode byte at all -/
  | noBytes
  /-- the opcode byte has no definition (R84) -/
  | undefinedOpcode (op : Byte)
  /-- the definition's operand bytes are not all there -/
  | truncated (op : Byte)
  /-- the definition's (operation, mode) pair has no behavior (R101); no row of R80 is one -/
  | noBehavior (op : Byte)
deriving DecidableEq, Repr

/-- The instruction of a behavior and a mode (R101) with its operand fields (R74): `b1` is the byte
after the opcode, `b2` the one after it (not read by an F2 mode). -/
def instrOf : Operation → Mode → Byte → Byte → Option Instr
  | .adc, .immediate, b1, _  => some (.adcImm b1)
  | .adc, .zeropage,  b1, _  => some (.adcZp b1)
  | .adc, .zeropageX, b1, _  => some (.adcZpX b1)
  | .adc, .absolute,  b1, b2 => some (.adcAbs (assembleWord b1 b2))
  | .adc, .absoluteX, b1, b2 => some (.adcAbsX (assembleWord b1 b2))
  | .adc, .absoluteY, b1, b2 => some (.adcAbsY (assembleWord b1 b2))
  | .adc, .indirectX, b1, _  => some (.adcIndX b1)
  | .adc, .indirectY, b1, _  => some (.adcIndY b1)
  | .and, .immediate, b1, _  => some (.andImm b1)
  | .and, .zeropage,  b1, _  => some (.andZp b1)
  | .and, .zeropageX, b1, _  => some (.andZpX b1)
  | .and, .absolute,  b1, b2 => some (.andAbs (assembleWord b1 b2))
  | .and, .absoluteX, b1, b2 => some (.andAbsX (assembleWord b1 b2))
  | .and, .absoluteY, b1, b2 => some (.andAbsY (assembleWord b1 b2))
  | .and, .indirectX, b1, _  => some (.andIndX b1)
  | .and, .indirectY, b1, _  => some (.andIndY b1)
  | .jmp, .absolute,  b1, b2 => some (.jmpAbs (assembleWord b1 b2))
  | .jmp, .immediate, _,  _  => none
  | .jmp, .zeropage,  _,  _  => none
  | .jmp, .zeropageX, _,  _  => none
  | .jmp, .absoluteX, _,  _  => none
  | .jmp, .absoluteY, _,  _  => none
  | .jmp, .indirectX, _,  _  => none
  | .jmp, .indirectY, _,  _  => none

/-- Decoding with a definition in hand: the bytes after the opcode (R73). -/
def decodeWith (d : InstrDef) (rest : List Byte) : Except DecodeReject (Instr × List Byte) :=
  if rest.length < d.mode.operandBytes then .error (.truncated d.opcode)
  else
    match instrOf d.behavior d.mode (rest.headD 0) (rest.tail.headD 0) with
    | some i => .ok (i, rest.drop d.mode.operandBytes)
    | none => .error (.noBehavior d.opcode)

/-- The decoder: the whole opcode byte is looked up (R71), its definition's mode says how many
operand bytes follow (R73), and the instruction comes back with the bytes after it. -/
def decode : List Byte → Except DecodeReject (Instr × List Byte)
  | [] => .error .noBytes
  | op :: rest =>
    match itable op with
    | none => .error (.undefinedOpcode op)
    | some d => decodeWith d rest

/-! ### Encoding -/

/-- Bits 7..0 of a 16-bit value (R70 format F3, byte 1). -/
def lowByte (v : Address) : Byte := BitVec.ofNat 8 v.toNat

/-- Bits 15..8 of a 16-bit value (R70 format F3, byte 2). -/
def highByte (v : Address) : Byte := BitVec.ofNat 8 (v.toNat / 256)

/-- The operand bytes of an instruction in memory order (R70: F2 or F3). -/
def Instr.operandField : Instr → List Byte
  | .adcImm d8     => [d8]
  | .adcZp d8      => [d8]
  | .adcZpX d8     => [d8]
  | .adcAbs abs16  => [lowByte abs16, highByte abs16]
  | .adcAbsX abs16 => [lowByte abs16, highByte abs16]
  | .adcAbsY abs16 => [lowByte abs16, highByte abs16]
  | .adcIndX d8    => [d8]
  | .adcIndY d8    => [d8]
  | .andImm d8     => [d8]
  | .andZp d8      => [d8]
  | .andZpX d8     => [d8]
  | .andAbs abs16  => [lowByte abs16, highByte abs16]
  | .andAbsX abs16 => [lowByte abs16, highByte abs16]
  | .andAbsY abs16 => [lowByte abs16, highByte abs16]
  | .andIndX d8    => [d8]
  | .andIndY d8    => [d8]
  | .jmpAbs abs16  => [lowByte abs16, highByte abs16]

/-- The bytes of an instruction in memory order: its row's opcode, then its operand bytes (R70). -/
def encode (i : Instr) : List Byte :=
  i.row.opcode :: i.operandField

/-! ### The table's numbering of words -/

/-- The bytes of a word of `nbits` bits as the hardware stores them (R70: `opcode | byte1 << 8 |
byte2 << 16`), up to the longest instruction, every bit above `nbits` being 0. -/
def tableBytes (nbits w : Nat) : List Byte :=
  let v := w % 2 ^ nbits
  [BitVec.ofNat 8 v, BitVec.ofNat 8 (v / 256), BitVec.ofNat 8 (v / 65536)]

/-- The instruction the decoder reads from a word numbered as `spec/opcode_table.json` numbers it. -/
def decodeTableWord (nbits w : Nat) : Option Instr :=
  match decode (tableBytes nbits w) with
  | .ok (i, _) => some i
  | .error _ => none

end Sys2Proof
end

