-- ==== Sys2Proof/Machine/State.lean ====
section
/-! DEFINITION. The state of the block as plain data (`10_state.md`, `00_scope.md` R7), its value
after reset (R35 to R38), and why a step can stop. -/

namespace Sys2Proof.Machine

/-- The faults of the block. There is one (`60_exceptions.md` R181, R185). -/
inductive Fault where
  /-- `DecodeError` (R181): raised by `step` when the byte fetched at `PC` has no definition, with
  the two values it records. It is TAKEN, by `State.takeDecodeError`: the step answers a next state
  with `HALTED` set and this value in `raised`, never `Outcome.fault` (DESIGN CHOICE, log 1). Safe:
  everything the spec says of the fault is in that next state. -/
  | decodeError (opcode : Byte) (address : Address)
deriving DecidableEq, Repr

/-- Why an instruction has no meaning in this model. -/
inductive Refusal where
  /-- the instruction has no meaning yet; raised by no arm of `exec`: all seventeen have theirs.
  Safe. -/
  | notModelled (mnemonic : String)
deriving DecidableEq, Repr

/-- The five 8-bit register cells, in the source's order (R10). No encoding carries a register
number. -/
inductive Reg where
  | A
  | Y
  | X
  | S
  | P
deriving DecidableEq, Repr

/-- Memory (R27, R40): the bytes whose value is known because something wrote them, in rising order of
address. A byte that is not listed has no known value: it reads as the launch image `Config.M0` (R37,
log 3). `Memory.wf` says the form. -/
abbrev Memory := List Host.Cell

/-- The canonical form from address `lo` on: addresses strictly rising and inside the address space.
An entry is never what an unlisted address gives, since that is no known value. -/
def Memory.wfFrom : Nat → Memory → Bool
  | _, [] => true
  | lo, (a, _) :: m =>
    decide (lo ≤ a) && decide (a < Config.memSize) && Memory.wfFrom (a + 1) m

/-- The canonical form of memory, in which memories that hold the same known bytes are equal data. -/
def Memory.wf (m : Memory) : Bool := m.wfFrom 0

/-- Everything the spec gives the machine (`10_state.md` section 1; R7), and `raised`. -/
structure State where
  /-- accumulator (R11) -/
  A : Byte
  /-- index register Y (R11) -/
  Y : Byte
  /-- index register X (R11) -/
  X : Byte
  /-- stack pointer, inert (R13) -/
  S : Byte
  /-- status register: C 0, Z 1, I 2, D 3, B 4, unused 5, V 6, N 7 (R20) -/
  P : Byte
  /-- program counter (R15) -/
  PC : Address
  /-- memory (R27, R40) -/
  mem : Memory
  /-- total cycles, unbounded (R30) -/
  CYCLES : Nat
  /-- total instructions, unbounded (R30) -/
  INSTRET : Nat
  /-- set by a step that raises `DecodeError`, cleared only by reset (R32) -/
  HALTED : Bool
  /-- the fault that was raised, with the values R181 records; the MODEL's own field (log 2) -/
  raised : Option Fault
deriving DecidableEq, Repr

/-- The machine right after reset (R35, R36, R38, R210, R211): every cell and PC zero, counters zero,
not halted; memory with nothing listed, so that every byte is the launch image's `Config.M0` (R37,
R210: memory is the launch parameter; log 3). -/
def State.reset : State where
  A := 0
  Y := 0
  X := 0
  S := 0
  P := 0
  PC := 0
  mem := []
  CYCLES := 0
  INSTRET := 0
  HALTED := false
  raised := none

end Sys2Proof.Machine
end

