-- ==== Sys2Proof/Machine/Flags.lean ====
section
/-! DEFINITION. The flags of P (`10_state.md` R20), the set-bit/clear-bit discipline (R22) and the
four flag conditions (R21, R23, `40_step_and_addressing.md` R116). -/

namespace Sys2Proof.Machine

/-- The seven named flags of P (R20); bit 5 has no name. -/
inductive Flag where
  | C
  | Z
  | I
  | D
  | B
  | V
  | N
deriving DecidableEq, Repr

/-- The bit of P a flag occupies (R20). -/
def flagBit : Flag → Nat
  | .C => 0
  | .Z => 1
  | .I => 2
  | .D => 3
  | .B => 4
  | .V => 6
  | .N => 7

/-- The mask of a flag (R20). -/
def flagMask (f : Flag) : Byte := BitVec.ofNat 8 (2 ^ flagBit f)

/-- `P.f` (R4): one flag of a status byte. -/
def readFlag (f : Flag) (p : Byte) : Bool := p.getLsbD (flagBit f)

/-- `SetFlag(f, b)` on a status byte (R4, R22): OR in the mask to set, AND with its complement to
clear. -/
def setFlag (f : Flag) (b : Bool) (p : Byte) : Byte :=
  if b then p ||| flagMask f else p &&& ~~~(flagMask f)

/-- Zero (R21): the result byte equals zero. -/
def zeroOf (r : Byte) : Bool := r == 0

/-- Negative (R21): bit 7 of the result byte. -/
def negativeOf (r : Byte) : Bool := r.getLsbD 7

/-- The unbounded sum of two operand bytes and an incoming carry (R130): 0 to 511. -/
def adcSum (a m : Byte) (c : Bool) : Nat := a.toNat + m.toNat + c.toNat

/-- The result byte of add-with-carry (R130): the sum modulo 256. -/
def adcResult (a m : Byte) (c : Bool) : Byte := BitVec.ofNat 8 (adcSum a m c)

/-- Carry of an additive operation (R21): the unsigned sum exceeds 255. -/
def carryOf (a m : Byte) (c : Bool) : Bool := decide (adcSum a m c > 255)

/-- Overflow (R21, R23): the input operands share a sign bit and the result's differs from it. -/
def overflowOf (a m r : Byte) : Bool :=
  a.getLsbD 7 == m.getLsbD 7 && r.getLsbD 7 != a.getLsbD 7

/-- `SetNZ(r)` on a status byte (R116): both flags written every time. -/
def setNZ (r : Byte) (p : Byte) : Byte :=
  setFlag .N (negativeOf r) (setFlag .Z (zeroOf r) p)

/-- The status byte after add-with-carry of `a`, `m` and the carry in `p` (R130): C, V, Z, N. -/
def adcStatus (a m : Byte) (p : Byte) : Byte :=
  let c := readFlag .C p
  let r := adcResult a m c
  setNZ r (setFlag .V (overflowOf a m r) (setFlag .C (carryOf a m c) p))

/-- The status byte after logical AND with result `r` (R150): Z and N only. -/
def andStatus (r : Byte) (p : Byte) : Byte := setNZ r p

end Sys2Proof.Machine
end

