-- ==== Sys2Proof/Machine/Ops.lean ====
section
/-! DEFINITION. The named operations over memory and registers: address reduction (`20_memory.md`
R41, R42), byte read and write (R43, R44), register cells (`10_state.md` R12) and PC (R16), the
common tail of an instruction (`40_step_and_addressing.md` R115, R100), and taking the one exception
of the block (`60_exceptions.md` R181, R182, R189). There is no return from it (R183). -/

namespace Sys2Proof.Machine

/-! ### Addresses -/

/-- The address decoder's wrap (R41): any address modulo MEMSIZE. -/
def wrapAddress (n : Nat) : Address := BitVec.ofNat 16 (n % Config.memSize)

/-- The zero-page mask (R42): an address modulo 256. -/
def zeroPageAddress (n : Nat) : Address := BitVec.ofNat 16 (n % 256)

/-! ### Memory as data -/

/-- The known byte at an address: none where the list has none. -/
def Memory.get : Memory → Nat → Option Byte
  | [], _ => none
  | (b, w) :: m, a => if a = b then some w else Memory.get m a

/-- The byte at an address: the known one, else the launch image's (R37, U4, log 3). -/
def Memory.read (m : Memory) (a : Nat) : Byte := (m.get a).getD (Config.M0 a)

/-- The memory with the byte at one address replaced, in canonical form. -/
def Memory.put : Memory → Nat → Byte → Memory
  | [], a, v => [(a, v)]
  | (b, w) :: m, a, v =>
    if a < b then (a, v) :: (b, w) :: m
    else if a = b then (a, v) :: m
    else (b, w) :: Memory.put m a v

/-- The memory that holds `f a` at every address `a` from `lo` up to `lo + n`. -/
def Memory.ofImageFrom (f : Nat → Byte) : Nat → Nat → Memory
  | _, 0 => []
  | lo, n + 1 => (lo, f lo) :: Memory.ofImageFrom f (lo + 1) n

/-- The canonical memory of a whole given image, every byte of it known (R37). -/
def Memory.ofImage (f : Nat → Byte) : Memory := Memory.ofImageFrom f 0 Config.memSize

/-! ### The memory interface -/

/-- `MemRead(addr, 1)` (R4, R43, R46): the byte at `addr mod MEMSIZE`, unsigned. -/
def State.memRead (s : State) (addr : Nat) : Byte := s.mem.read (wrapAddress addr).toNat

/-- `MemWrite(addr, 1, v)` (R4, R44): the byte at `addr mod MEMSIZE` becomes `v mod 256`. No
instruction in scope uses it; the host does (R45). -/
def State.memWrite (s : State) (addr v : Nat) : State :=
  { s with mem := s.mem.put (wrapAddress addr).toNat (BitVec.ofNat 8 v) }

/-- Consecutive bytes written from an address on, each address wrapped (R41). -/
def State.memWriteBytes (s : State) (addr : Nat) : List Byte → State
  | [] => s
  | b :: bs => (s.memWrite addr b.toNat).memWriteBytes (addr + 1) bs

/-! ### Registers -/

/-- `x[r]` (R4, R10): read a cell. -/
def State.readReg (s : State) : Reg → Byte
  | .A => s.A
  | .Y => s.Y
  | .X => s.X
  | .S => s.S
  | .P => s.P

/-- `x[r] <- v` (R4, R12): the cell becomes `v mod 256`. -/
def State.writeReg (s : State) (r : Reg) (v : Nat) : State :=
  match r with
  | .A => { s with A := BitVec.ofNat 8 v }
  | .Y => { s with Y := BitVec.ofNat 8 v }
  | .X => { s with X := BitVec.ofNat 8 v }
  | .S => { s with S := BitVec.ofNat 8 v }
  | .P => { s with P := BitVec.ofNat 8 v }

/-- `pc <- t` (R4, R16): PC becomes `t mod MEMSIZE`. -/
def State.writePC (s : State) (t : Nat) : State := { s with PC := wrapAddress t }

/-! ### The operations of the instructions -/

/-- `ADC_core(m)` (R130): A and the flags C, V, Z, N, all from the old A, the old carry and `m`. -/
def State.adcCore (s : State) (m : Byte) : State :=
  { s with
    A := adcResult s.A m (readFlag .C s.P)
    P := adcStatus s.A m s.P }

/-- `AND_core(m)` (R150): A and the flags Z, N. -/
def State.andCore (s : State) (m : Byte) : State :=
  { s with
    A := s.A &&& m
    P := andStatus (s.A &&& m) s.P }

/-- R173: whether an operation is a control transfer. -/
def isControlTransfer : Operation → Bool
  | .adc => false
  | .and => false
  | .jmp => true

/-- The common tail of a behavior (R17, R115): PC advances by the definition's length, unless the
operation is a control transfer, which has set PC itself (R173). -/
def State.advance (s : State) (d : InstrDef) : State :=
  if isControlTransfer d.behavior then s else s.writePC (s.PC.toNat + d.length)

/-- What the step adds after a behavior (R100, R30): the definition's cycle cost and one
instruction. -/
def State.retire (s : State) (d : InstrDef) : State :=
  { s with CYCLES := s.CYCLES + d.cycles, INSTRET := s.INSTRET + 1 }

/-! ### Taking the exception -/

/-- Taking `DecodeError(op, pc)` (R181, R182, R189): HALTED is set and the two values are recorded;
nothing is saved, no register, flag, memory byte or counter changes, and control goes nowhere. -/
def State.takeDecodeError (s : State) (op : Byte) : State :=
  { s with HALTED := true, raised := some (.decodeError op s.PC) }

end Sys2Proof.Machine
end

