-- ==== Sys2Proof/Machine/Operands.lean ====
section
/-! DEFINITION. The eight addressing modes (`40_step_and_addressing.md` R102 to R112): the effective
address of each and the operand byte it delivers, and the operand of a jump (R110). No mode changes
anything (R102); X and Y are read unsigned. -/

namespace Sys2Proof.Machine

/-- `zeropage` (R105): the byte after the opcode, masked to one byte. -/
def eaZeropage (d8 : Byte) : Address := zeroPageAddress d8.toNat

/-- `zeropage,X` (R106): the sum wraps inside the zero page. -/
def eaZeropageX (d8 : Byte) (s : State) : Address := zeroPageAddress (d8.toNat + s.X.toNat)

/-- `absolute` (R107). -/
def eaAbsolute (abs16 : Address) : Address := wrapAddress abs16.toNat

/-- `absolute,X` (R108): the index is added to the full 16-bit address, with full wrap. -/
def eaAbsoluteX (abs16 : Address) (s : State) : Address := wrapAddress (abs16.toNat + s.X.toNat)

/-- `absolute,Y` (R109). -/
def eaAbsoluteY (abs16 : Address) (s : State) : Address := wrapAddress (abs16.toNat + s.Y.toNat)

/-- `indirect,X` (R111): ONE level. The sum is masked to the zero page and the byte there is the
operand itself; no pointer is read (`90_conflicts.md` C3, log 22). -/
def eaIndirectX (d8 : Byte) (s : State) : Address := zeroPageAddress (d8.toNat + s.X.toNat)

/-- `zb` of R112: where the pointer's high byte is read, under each value of `PTR_HI_WRAP`. -/
def pointerHighAddress (w : PtrHiWrap) (za : Byte) : Address :=
  match w with
  | .zp => zeroPageAddress (za.toNat + 1)
  | .linear => wrapAddress (za.toNat + 1)

/-- `V` of R112: the 16-bit pointer at zero-page address `za`, low byte first (R48). -/
def pointerAt (w : PtrHiWrap) (za : Byte) (s : State) : Address :=
  assembleWord (s.memRead (zeroPageAddress za.toNat).toNat)
    (s.memRead (pointerHighAddress w za).toNat)

/-- The `indirect,Y` effective address under either value of `PTR_HI_WRAP` (R112): Y is added to the
pointer after it is read, with full wrap. -/
def eaIndirectYWith (w : PtrHiWrap) (za : Byte) (s : State) : Address :=
  wrapAddress ((pointerAt w za s).toNat + s.Y.toNat)

/-- `indirect,Y` (R112) on this hardware. -/
def eaIndirectY (za : Byte) (s : State) : Address := eaIndirectYWith Config.ptrHiWrap za s

/-- The operand byte at an effective address (R103). -/
def operandAt (ea : Address) (s : State) : Byte := s.memRead ea.toNat

/-- `immediate` (R104): the instruction's second byte. -/
def operandImmediate (d8 : Byte) : Byte := d8

/-- `absolute` as a jump operand (R110): the address itself, not dereferenced. -/
def jumpTarget (abs16 : Address) : Nat := abs16.toNat

end Sys2Proof.Machine
end

