-- ==== Sys2Proof/Machine/Adc.lean ====
section
/-! DEFINITION. The meanings of add-with-carry (`41_adc.md`): resolve the operand byte by the mode's rule, apply
the operation (R130), advance PC (R115). None can raise anything. The counters are the step's (R100). -/

namespace Sys2Proof.Machine

/-- R131: ADC, immediate. -/
def execAdcImm (d8 : Byte) (s : State) : Host.Outcome State Fault Refusal :=
  .next ((s.adcCore (operandImmediate d8)).advance rowAdcImm)

/-- R132: ADC, zeropage. -/
def execAdcZp (d8 : Byte) (s : State) : Host.Outcome State Fault Refusal :=
  .next ((s.adcCore (operandAt (eaZeropage d8) s)).advance rowAdcZp)

/-- R133: ADC, zeropage,X. -/
def execAdcZpX (d8 : Byte) (s : State) : Host.Outcome State Fault Refusal :=
  .next ((s.adcCore (operandAt (eaZeropageX d8 s) s)).advance rowAdcZpX)

/-- R134: ADC, absolute. -/
def execAdcAbs (abs16 : Address) (s : State) : Host.Outcome State Fault Refusal :=
  .next ((s.adcCore (operandAt (eaAbsolute abs16) s)).advance rowAdcAbs)

/-- R135: ADC, absolute,X. -/
def execAdcAbsX (abs16 : Address) (s : State) : Host.Outcome State Fault Refusal :=
  .next ((s.adcCore (operandAt (eaAbsoluteX abs16 s) s)).advance rowAdcAbsX)

/-- R136: ADC, absolute,Y. -/
def execAdcAbsY (abs16 : Address) (s : State) : Host.Outcome State Fault Refusal :=
  .next ((s.adcCore (operandAt (eaAbsoluteY abs16 s) s)).advance rowAdcAbsY)

/-- R137: ADC, indirect,X, one level. -/
def execAdcIndX (d8 : Byte) (s : State) : Host.Outcome State Fault Refusal :=
  .next ((s.adcCore (operandAt (eaIndirectX d8 s) s)).advance rowAdcIndX)

/-- R138: ADC, indirect,Y. -/
def execAdcIndY (d8 : Byte) (s : State) : Host.Outcome State Fault Refusal :=
  .next ((s.adcCore (operandAt (eaIndirectY d8 s) s)).advance rowAdcIndY)

end Sys2Proof.Machine
end

