-- ==== Sys2Proof/Machine/And.lean ====
section
/-! DEFINITION. The meanings of logical AND (`42_and.md`): resolve the operand byte by the mode's rule, apply
the operation (R150), advance PC (R115). None can raise anything. The counters are the step's (R100). -/

namespace Sys2Proof.Machine

/-- R151: AND, immediate. -/
def execAndImm (d8 : Byte) (s : State) : Host.Outcome State Fault Refusal :=
  .next ((s.andCore (operandImmediate d8)).advance rowAndImm)

/-- R152: AND, zeropage. -/
def execAndZp (d8 : Byte) (s : State) : Host.Outcome State Fault Refusal :=
  .next ((s.andCore (operandAt (eaZeropage d8) s)).advance rowAndZp)

/-- R153: AND, zeropage,X. -/
def execAndZpX (d8 : Byte) (s : State) : Host.Outcome State Fault Refusal :=
  .next ((s.andCore (operandAt (eaZeropageX d8 s) s)).advance rowAndZpX)

/-- R154: AND, absolute. -/
def execAndAbs (abs16 : Address) (s : State) : Host.Outcome State Fault Refusal :=
  .next ((s.andCore (operandAt (eaAbsolute abs16) s)).advance rowAndAbs)

/-- R155: AND, absolute,X. -/
def execAndAbsX (abs16 : Address) (s : State) : Host.Outcome State Fault Refusal :=
  .next ((s.andCore (operandAt (eaAbsoluteX abs16 s) s)).advance rowAndAbsX)

/-- R156: AND, absolute,Y. -/
def execAndAbsY (abs16 : Address) (s : State) : Host.Outcome State Fault Refusal :=
  .next ((s.andCore (operandAt (eaAbsoluteY abs16 s) s)).advance rowAndAbsY)

/-- R157: AND, indirect,X, one level. -/
def execAndIndX (d8 : Byte) (s : State) : Host.Outcome State Fault Refusal :=
  .next ((s.andCore (operandAt (eaIndirectX d8 s) s)).advance rowAndIndX)

/-- R158: AND, indirect,Y. -/
def execAndIndY (d8 : Byte) (s : State) : Host.Outcome State Fault Refusal :=
  .next ((s.andCore (operandAt (eaIndirectY d8 s) s)).advance rowAndIndY)

end Sys2Proof.Machine
end

