-- ==== Sys2Proof/Machine/Jump.lean ====
section
/-! DEFINITION. The meaning of jump absolute (`43_jmp.md` R170), the block's only control transfer
(R171): PC becomes the target and the length-based advance is not applied (R173). -/

namespace Sys2Proof.Machine

/-- R170: JMP, absolute. Writes PC only; the target cell is not read. -/
def execJmpAbs (abs16 : Address) (s : State) : Host.Outcome State Fault Refusal :=
  .next ((s.writePC (jumpTarget abs16)).advance rowJmpAbs)

end Sys2Proof.Machine
end

