-- ==== Sys2Proof/Machine/Dispatch.lean ====
section
/-! DEFINITION. The dispatch of `40_step_and_addressing.md` R101: one meaning per instruction. -/

namespace Sys2Proof.Machine

/-- What an instruction does (R101): its behavior and addressing mode. The step counts it (R100). -/
def exec (i : Instr) (s : State) : Host.Outcome State Fault Refusal :=
  match i with
  | .adcImm d8 => Sys2Proof.Machine.execAdcImm d8 s
  | .adcZp d8 => Sys2Proof.Machine.execAdcZp d8 s
  | .adcZpX d8 => Sys2Proof.Machine.execAdcZpX d8 s
  | .adcAbs abs16 => Sys2Proof.Machine.execAdcAbs abs16 s
  | .adcAbsX abs16 => Sys2Proof.Machine.execAdcAbsX abs16 s
  | .adcAbsY abs16 => Sys2Proof.Machine.execAdcAbsY abs16 s
  | .adcIndX d8 => Sys2Proof.Machine.execAdcIndX d8 s
  | .adcIndY d8 => Sys2Proof.Machine.execAdcIndY d8 s
  | .andImm d8 => Sys2Proof.Machine.execAndImm d8 s
  | .andZp d8 => Sys2Proof.Machine.execAndZp d8 s
  | .andZpX d8 => Sys2Proof.Machine.execAndZpX d8 s
  | .andAbs abs16 => Sys2Proof.Machine.execAndAbs abs16 s
  | .andAbsX abs16 => Sys2Proof.Machine.execAndAbsX abs16 s
  | .andAbsY abs16 => Sys2Proof.Machine.execAndAbsY abs16 s
  | .andIndX d8 => Sys2Proof.Machine.execAndIndX d8 s
  | .andIndY d8 => Sys2Proof.Machine.execAndIndY d8 s
  | .jmpAbs abs16 => Sys2Proof.Machine.execJmpAbs abs16 s

end Sys2Proof.Machine
end

