-- ==== Sys2Proof/Machine/Fetch.lean ====
section
/-! DEFINITION. Fetching and decoding at PC (`40_step_and_addressing.md` R100, R114;
`30_encoding.md` R70, R73), and placing bytes where the fetch reads them. -/

namespace Sys2Proof.Machine

/-- `n` consecutive bytes from an address on, each address wrapped (R41, R70). -/
def State.readBytes (s : State) (addr : Nat) : Nat → List Byte
  | 0 => []
  | n + 1 => s.memRead addr :: s.readBytes (addr + 1) n

/-- The bytes a step fetches (R114, R188): the opcode at PC first; its operand bytes at PC+1 and PC+2
only if the table defines it. -/
def State.fetchBytes (s : State) : List Byte :=
  match itable (s.memRead s.PC.toNat) with
  | none => [s.memRead s.PC.toNat]
  | some d => s.memRead s.PC.toNat :: s.readBytes (s.PC.toNat + 1) d.mode.operandBytes

/-- Fetch and decode (R100): the instruction at PC, or the opcode byte that has no definition. -/
def State.fetch (s : State) : Except Byte Instr :=
  match decode s.fetchBytes with
  | .ok (i, _) => .ok i
  | .error _ => .error (s.memRead s.PC.toNat)

/-- The state with bytes stored from PC on (R45) and the engine not halted, so that the next step
fetches them. -/
def State.placeForFetch (s : State) (bytes : List Byte) : State :=
  { s.memWriteBytes s.PC.toNat bytes with HALTED := false, raised := none }

end Sys2Proof.Machine
end

