-- ==== Sys2Proof/Machine/Sequence.lean ====
section
/-! DEFINITION. The sequence of one step (`40_step_and_addressing.md` R100), and of several. -/

namespace Sys2Proof.Machine

/-- Execute a decoded instruction and count it (R100): the behavior, then the definition's cycle cost
and one instruction. -/
def execAndCount (i : Instr) (s : State) : Host.Outcome State Fault Refusal :=
  match exec i s with
  | .next t => .next (t.retire i.row)
  | .fault f => .fault f
  | .refused r => .refused r

/-- One step (R100). A halted engine does nothing (R183); otherwise the instruction at PC is fetched
and decoded; an opcode with no definition takes `DecodeError` (R181, log 1). -/
def stepSequence (s : State) : Host.Outcome State Fault Refusal :=
  if s.HALTED then .next s
  else
    match s.fetch with
    | .error op => .next (s.takeDecodeError op)
    | .ok i => execAndCount i s

end Sys2Proof.Machine
end

