-- ==== Sys2Proof/Machine/Step.lean ====
section
/-! DEFINITION. The step (`40_step_and_addressing.md` R100), and an instruction word placed where the
step fetches. -/

namespace Sys2Proof.Machine

/-- One step of the core (R100). -/
def step (s : State) : Host.Outcome State Fault Refusal := stepSequence s

/-- The state with an instruction word, numbered as `spec/opcode_table.json` numbers it, stored at PC
(R45: the host writes the program image; log 4). -/
def State.withFetchWord (s : State) (nbits w : Nat) : State :=
  s.placeForFetch (tableBytes nbits w)

end Sys2Proof.Machine
end

