-- ==== Sys2Proof/Machine/Clock.lean ====
section
/-! DEFINITION. The Clock (`70_reset_and_hazards.md` R225 to R232), the agent OUTSIDE the block that
requests steps (`00_scope.md` section 3, log 20). No field of `State` belongs to it and no step reads
it. Wall-clock time enters only as the duration the host's timer reports. -/

namespace Sys2Proof.Machine

/-- The Clock's own state (R225, R227, R229). DESIGN CHOICE (log 28): the two frequencies and the frame
duration are whole numbers, of which the spec says nothing; a fractional frequency has no `Clock`. -/
structure Clock where
  targetFrequency : Nat
  tickFrequency : Nat
  running : Bool
  /-- the periodic timer's handle is there (R226, R231) -/
  timerArmed : Bool
  /-- the reentrancy guard (R229) -/
  busy : Bool
  frames : Nat
  lastFrameMs : Nat
deriving DecidableEq, Repr

/-- `ceil(targetFrequency / tickFrequency)` (R225): the number of step requests of a frame (R228). -/
def Clock.cyclesPerFrame (c : Clock) : Nat :=
  if c.tickFrequency = 0 then Config.clockQuotientByZero c.targetFrequency
  else (c.targetFrequency + (c.tickFrequency - 1)) / c.tickFrequency

/-- `floor(1000 / tickFrequency)` (R225). -/
def Clock.frameIntervalMs (c : Clock) : Nat :=
  if c.tickFrequency = 0 then Config.clockQuotientByZero 1000 else 1000 / c.tickFrequency

/-- `n` step requests back to back (R227): each executes one whole instruction (R228). -/
def requestSteps : Nat → State → Host.Outcome State Fault Refusal
  | 0, s => .next s
  | n + 1, s =>
    match step s with
    | .next t => requestSteps n t
    | .fault f => .fault f
    | .refused r => .refused r

/-- A frame invocation begins (R227, R229): refused, as a no-op, when a frame is in progress. -/
def Clock.beginFrame (c : Clock) : Option Clock :=
  if c.busy then none else some { c with busy := true }

/-- A frame invocation ends (R227): duration recorded, frame counted, busy flag cleared. -/
def Clock.endFrame (c : Clock) (durationMs : Nat) : Clock :=
  { c with busy := false, frames := c.frames + 1, lastFrameMs := durationMs }

/-- One frame invocation (R227): nothing at all when busy, else `cyclesPerFrame` step requests. DESIGN
CHOICE (log 26): a halted engine does not stop the Clock, of which R234 says nothing; it stays running
and the frame is counted, its step requests changing nothing (R183). -/
def Clock.frame (c : Clock) (durationMs : Nat) (s : State) :
    Clock × Host.Outcome State Fault Refusal :=
  match c.beginFrame with
  | none => (c, .next s)
  | some b => (b.endFrame durationMs, requestSteps b.cyclesPerFrame s)

/-- Start (R226): one frame immediately, then the periodic timer is armed. DESIGN CHOICE (log 27): a
start on a Clock that is already running, of which the spec says nothing, does the same: one more frame
at once, and the timer is armed again. -/
def Clock.start (c : Clock) (durationMs : Nat) (s : State) :
    Clock × Host.Outcome State Fault Refusal :=
  let r := Clock.frame { c with running := true } durationMs s
  ({ r.1 with timerArmed := true }, r.2)

/-- Stop (R230, R231, R232): a no-op when not running; a fatal consistency error (`none`) when running
with no timer handle; otherwise no further frame is scheduled. The block's state is not touched. -/
def Clock.stop (c : Clock) : Option Clock :=
  if c.running then
    if c.timerArmed then some { c with running := false, timerArmed := false } else none
  else some c

end Sys2Proof.Machine
end

