-- ==== Sys2Proof/Machine/HostAccess.lean ====
section
/-! DEFINITION. The host's access to the block, between steps only (`10_state.md` R14, `20_memory.md`
R45, `60_exceptions.md` R184, R194, R197, `70_reset_and_hazards.md` R210 to R215): launching it with
an image, writing and reading registers and memory, re-creating the engine, reading the statistics
and the diagnostic dump. No step reads anything of this file. -/

namespace Sys2Proof.Machine

/-- The machine at its first step with a given image in the place of `M0` and the reset registers (R1,
R35 to R37, R210). -/
def State.launch (image : Nat → Byte) : State :=
  { State.reset with mem := Memory.ofImage image }

/-- The machine at its first step with the unknown launch image `Config.M0` (R37): the reset state,
every byte of whose memory is `Config.M0`'s. -/
def State.boot : State := State.reset

/-- What the host may do between steps (R14, R45, R210, R214). -/
inductive HostAction where
  /-- write a register cell; the value is stored modulo 256 (R12) -/
  | writeReg (r : Reg) (v : Nat)
  /-- write PC; the value is stored modulo MEMSIZE (R16) -/
  | writePC (t : Nat)
  /-- write a memory byte (R44, R45) -/
  | writeByte (addr v : Nat)
  /-- re-create the engine (R210): reset; the memory survives (D13, log 19) -/
  | recreateEngine
deriving DecidableEq, Repr

/-- The effect of a host action. -/
def hostAct (a : HostAction) (s : State) : State :=
  match a with
  | .writeReg r v => s.writeReg r v
  | .writePC t => s.writePC t
  | .writeByte addr v => s.memWrite addr v
  | .recreateEngine => { State.reset with mem := s.mem }

/-- What happens to the block, one after another (R6, R214): a step request or a host action. -/
inductive SessionEvent where
  | step
  | host (a : HostAction)
deriving DecidableEq, Repr

/-- A session (R212, R216): events taken in order; it stops early only at a fault or a refusal. -/
def session : List SessionEvent → State → Host.Outcome State Fault Refusal
  | [], s => .next s
  | .host a :: es, s => session es (hostAct a s)
  | .step :: es, s =>
    match Sys2Proof.Machine.step s with
    | .next t => session es t
    | .fault f => .fault f
    | .refused r => .refused r

/-- The statistics snapshot of the block (R194): total cycles and total instructions. -/
def State.statistics (s : State) : Nat × Nat := (s.CYCLES, s.INSTRET)

/-- The diagnostic dump's content (R184): registers, PC and memory, as State holds it (a byte that is
not listed is the launch image's, log 3). Its format is not given (U12). -/
structure DiagnosticDump where
  A : Byte
  Y : Byte
  X : Byte
  S : Byte
  P : Byte
  PC : Address
  memory : Memory
deriving DecidableEq, Repr

/-- The dump of a state (R184, R215); producing it changes nothing. -/
def State.dump (s : State) : DiagnosticDump :=
  { A := s.A, Y := s.Y, X := s.X, S := s.S, P := s.P, PC := s.PC, memory := s.mem }

end Sys2Proof.Machine
end

