-- ==== Sys2Proof/Machine/Trace.lean ====
section
/-! DEFINITION. The addresses one step reads, in order (`40_step_and_addressing.md` R114). The step
itself keeps no trace: a read has no side effect (`20_memory.md` R51). The order is the spec's
decision D11 (log 23). -/

namespace Sys2Proof.Machine

/-- `n` consecutive addresses, each wrapped (R41). -/
def addressesFrom (addr : Nat) : Nat → List Address
  | 0 => []
  | n + 1 => wrapAddress addr :: addressesFrom (addr + 1) n

/-- The reads of an operand (R114): for `indirect,Y` the pointer's low then high byte; then the
operand at the effective address. `immediate` and the jump read nothing more. -/
def dataReads (i : Instr) (s : State) : List Address :=
  match i with
  | .adcImm _ => []
  | .adcZp d8 => [eaZeropage d8]
  | .adcZpX d8 => [eaZeropageX d8 s]
  | .adcAbs abs16 => [eaAbsolute abs16]
  | .adcAbsX abs16 => [eaAbsoluteX abs16 s]
  | .adcAbsY abs16 => [eaAbsoluteY abs16 s]
  | .adcIndX d8 => [eaIndirectX d8 s]
  | .adcIndY d8 =>
    [zeroPageAddress d8.toNat, pointerHighAddress Config.ptrHiWrap d8, eaIndirectY d8 s]
  | .andImm _ => []
  | .andZp d8 => [eaZeropage d8]
  | .andZpX d8 => [eaZeropageX d8 s]
  | .andAbs abs16 => [eaAbsolute abs16]
  | .andAbsX abs16 => [eaAbsoluteX abs16 s]
  | .andAbsY abs16 => [eaAbsoluteY abs16 s]
  | .andIndX d8 => [eaIndirectX d8 s]
  | .andIndY d8 =>
    [zeroPageAddress d8.toNat, pointerHighAddress Config.ptrHiWrap d8, eaIndirectY d8 s]
  | .jmpAbs _ => []

/-- The addresses a step reads, in order (R114): none when halted (R183); the opcode only, when it
has no definition (R182); else opcode, operand bytes, operand. -/
def stepReads (s : State) : List Address :=
  if s.HALTED then []
  else
    match s.fetch with
    | .error _ => [wrapAddress s.PC.toNat]
    | .ok i =>
      wrapAddress s.PC.toNat ::
        (addressesFrom (s.PC.toNat + 1) i.mode.operandBytes ++ dataReads i s)

end Sys2Proof.Machine
end

