-- ==== Sys2Proof/Safety.lean ====
section
/-! DEFINITION. What counts as a legal state and as a safe run, in the terms claims use. -/

namespace Sys2Proof.Machine

/-- What R181 to R183 say of the fault that has been raised: the engine is halted, PC still holds the
address the opcode was fetched from, memory there still holds the opcode, and it has no definition. -/
def State.faultRecordHolds (s : State) : Fault → Prop
  | .decodeError op pc => s.PC = pc ∧ s.memRead pc.toNat = op ∧ itable op = none

/-- The states a run of the core alone stays in: memory in the model's canonical form (log 3); HALTED
set exactly when a fault is recorded in the model's own field `raised` (log 2; R32, R181); and what that
fault records is true of the state (R182, R183). -/
structure State.Inv (s : State) : Prop where
  memory : s.mem.wf = true
  halted : s.HALTED = s.raised.isSome
  record : ∀ f, s.raised = some f → s.faultRecordHolds f

/-- A run of `n` steps is safe when it starts with the engine not halted and none of its steps raises
`DecodeError` (R216: a halt is a failure, not a normal end). A run that starts halted is not safe,
although none of its steps raises anything (R183). -/
def safeFor : Nat → State → Prop
  | 0, s => s.HALTED = false
  | n + 1, s => s.HALTED = false ∧ ∃ t, step s = .next t ∧ safeFor n t

end Sys2Proof.Machine
end

