-- ==== Sys2Proof/Certificates/Slice0/Obligations.lean ====
section
/-! DEFINITION. The statements of this model, and the few predicates they are written with. Every
number, bit position and address in them is the spec's own. -/

namespace Sys2Proof.Claims

open Sys2Proof.Machine

/-- What no instruction touches: X, Y, S (R14), every byte of memory (R44), and the halt. -/
structure Untouched (s t : State) : Prop where
  x : t.X = s.X
  y : t.Y = s.Y
  stack : t.S = s.S
  memory : ∀ addr, t.memRead addr = s.memRead addr
  halted : t.HALTED = s.HALTED
  raised : t.raised = s.raised

/-- The counters before the step adds to them (R100). -/
def Uncounted (s t : State) : Prop := t.CYCLES = s.CYCLES ∧ t.INSTRET = s.INSTRET

/-- The counters after a completed instruction of cost `cycles` (R30, R100). -/
def Counted (cycles : Nat) (s t : State) : Prop :=
  t.CYCLES = s.CYCLES + cycles ∧ t.INSTRET = s.INSTRET + 1

/-- An engine that is not halted, with these bytes in memory from PC on. -/
def ReadyAt (s : State) (bytes : List Byte) : Prop :=
  s.HALTED = false ∧ s.readBytes s.PC.toNat bytes.length = bytes

/-- ADC of the operand byte `m` by an instruction of `len` bytes: the result, the four flags, the
other bits of P, PC, and all the rest unchanged (R130, R116, R22, R115). -/
structure AdcEffect (m : Byte) (len : Nat) (s t : State) : Prop where
  result : t.A.toNat = (s.A.toNat + m.toNat + (s.P.getLsbD 0).toNat) % 256
  carry : t.P.getLsbD 0 = decide (s.A.toNat + m.toNat + (s.P.getLsbD 0).toNat > 255)
  zero : t.P.getLsbD 1 = decide (t.A.toNat = 0)
  overflow : t.P.getLsbD 6 =
    decide (s.A.getLsbD 7 = m.getLsbD 7 ∧ t.A.getLsbD 7 ≠ s.A.getLsbD 7)
  negative : t.P.getLsbD 7 = t.A.getLsbD 7
  otherBits : ∀ k, k = 2 ∨ k = 3 ∨ k = 4 ∨ k = 5 → t.P.getLsbD k = s.P.getLsbD k
  pc : t.PC.toNat = (s.PC.toNat + len) % 65536
  rest : Untouched s t

/-- AND of the operand byte `m` by an instruction of `len` bytes (R150, R116, R22, R115). -/
structure AndEffect (m : Byte) (len : Nat) (s t : State) : Prop where
  result : ∀ k, k < 8 → t.A.getLsbD k = (s.A.getLsbD k && m.getLsbD k)
  zero : t.P.getLsbD 1 = decide (t.A.toNat = 0)
  negative : t.P.getLsbD 7 = t.A.getLsbD 7
  otherBits : ∀ k, k = 0 ∨ k = 2 ∨ k = 3 ∨ k = 4 ∨ k = 5 ∨ k = 6 →
    t.P.getLsbD k = s.P.getLsbD k
  pc : t.PC.toNat = (s.PC.toNat + len) % 65536
  rest : Untouched s t

/-- JMP to `target` (R170): PC only. -/
structure JmpEffect (target : Nat) (s t : State) : Prop where
  pc : t.PC.toNat = target
  a : t.A = s.A
  p : t.P = s.P
  rest : Untouched s t

/-- Two states that differ at most in the inert state: S, bits 2 to 5 of P, and the counters (R13,
R24, R25, R26, R81). The recorded fault (the model's own field, log 2) is the same in both. -/
structure SameButInert (s t : State) : Prop where
  a : t.A = s.A
  y : t.Y = s.Y
  x : t.X = s.X
  flags : ∀ k, k = 0 ∨ k = 1 ∨ k = 6 ∨ k = 7 → t.P.getLsbD k = s.P.getLsbD k
  pc : t.PC = s.PC
  mem : t.mem = s.mem
  halted : t.HALTED = s.HALTED
  raised : t.raised = s.raised

/-- The state after the host has written these bytes from an address on, one `MemWrite` each (R45). -/
def hostWrites (addr : Nat) : List Byte → State → State
  | [], s => s
  | b :: bs, s => hostWrites (addr + 1) bs (hostAct (.writeByte addr b.toNat) s)

/-- The next step of `s` finds an opcode with no definition: it raises `DecodeError` (R181). -/
def RaisesNext (s : State) : Prop :=
  s.HALTED = false ∧ itable (s.memRead s.PC.toNat) = none

/-- The seventeen opcode bytes of R84. -/
def definedOpcodes : List Byte :=
  [0x21, 0x25, 0x29, 0x2D, 0x31, 0x35, 0x39, 0x3D, 0x4C] ++
  [0x61, 0x65, 0x69, 0x6D, 0x71, 0x75, 0x79, 0x7D]

end Sys2Proof.Claims

open Sys2Proof Sys2Proof.Machine Sys2Proof.Claims

/-! ### One statement per instruction

Each says what `exec` answers in every state, and what a step does in every state in which the
instruction's bytes stand at PC. They rest on the spec's decisions D2 (opcode bytes), D5 (lengths),
D6 (cycle costs) and D7 (the result goes to A): logs 5, 6, 7, 10. -/

/-- R131: `ADC #$nn`, operand the second byte. -/
def Obligations.AdcImmediateResult : Prop := ∀ (nn : Byte) (s : State),
  (∃ t, exec (.adcImm nn) s = .next t ∧ AdcEffect nn 2 s t ∧ Uncounted s t) ∧
  (ReadyAt s [0x69, nn] →
    ∃ t, step s = .next t ∧ AdcEffect nn 2 s t ∧ Counted 2 s t)

/-- R132: `ADC $nn`, operand the byte at zero-page address nn. -/
def Obligations.AdcZeroPageResult : Prop := ∀ (nn : Byte) (s : State),
  (∃ t, exec (.adcZp nn) s = .next t ∧ AdcEffect (s.memRead nn.toNat) 2 s t ∧ Uncounted s t) ∧
  (ReadyAt s [0x65, nn] →
    ∃ t, step s = .next t ∧ AdcEffect (s.memRead nn.toNat) 2 s t ∧ Counted 3 s t)

/-- R133: `ADC $nn,X`, operand the byte at zero-page address (nn + X) mod 256. -/
def Obligations.AdcZeroPageXResult : Prop := ∀ (nn : Byte) (s : State),
  (∃ t, exec (.adcZpX nn) s = .next t ∧ AdcEffect (s.memRead ((nn.toNat + s.X.toNat) % 256)) 2 s t ∧ Uncounted s t) ∧
  (ReadyAt s [0x75, nn] →
    ∃ t, step s = .next t ∧ AdcEffect (s.memRead ((nn.toNat + s.X.toNat) % 256)) 2 s t ∧ Counted 4 s t)

/-- R134: `ADC $hhll`, operand the byte at address hhll. -/
def Obligations.AdcAbsoluteResult : Prop := ∀ (hhll : Address) (s : State),
  (∃ t, exec (.adcAbs hhll) s = .next t ∧ AdcEffect (s.memRead hhll.toNat) 3 s t ∧ Uncounted s t) ∧
  (∀ ll hh : Byte, hhll.toNat = hh.toNat * 256 + ll.toNat → ReadyAt s [0x6D, ll, hh] →
    ∃ t, step s = .next t ∧ AdcEffect (s.memRead hhll.toNat) 3 s t ∧ Counted 4 s t)

/-- R135: `ADC $hhll,X`, operand the byte at (hhll + X) mod 65536. -/
def Obligations.AdcAbsoluteXResult : Prop := ∀ (hhll : Address) (s : State),
  (∃ t, exec (.adcAbsX hhll) s = .next t ∧ AdcEffect (s.memRead ((hhll.toNat + s.X.toNat) % 65536)) 3 s t ∧ Uncounted s t) ∧
  (∀ ll hh : Byte, hhll.toNat = hh.toNat * 256 + ll.toNat → ReadyAt s [0x7D, ll, hh] →
    ∃ t, step s = .next t ∧ AdcEffect (s.memRead ((hhll.toNat + s.X.toNat) % 65536)) 3 s t ∧ Counted 4 s t)

/-- R136: `ADC $hhll,Y`, operand the byte at (hhll + Y) mod 65536. -/
def Obligations.AdcAbsoluteYResult : Prop := ∀ (hhll : Address) (s : State),
  (∃ t, exec (.adcAbsY hhll) s = .next t ∧ AdcEffect (s.memRead ((hhll.toNat + s.Y.toNat) % 65536)) 3 s t ∧ Uncounted s t) ∧
  (∀ ll hh : Byte, hhll.toNat = hh.toNat * 256 + ll.toNat → ReadyAt s [0x79, ll, hh] →
    ∃ t, step s = .next t ∧ AdcEffect (s.memRead ((hhll.toNat + s.Y.toNat) % 65536)) 3 s t ∧ Counted 4 s t)

/-- R137: `ADC ($nn,X)`, operand the byte at zero-page address (nn + X) mod 256, with no pointer read. One level of dereference (C3, log 22). -/
def Obligations.AdcIndirectXResult : Prop := ∀ (nn : Byte) (s : State),
  (∃ t, exec (.adcIndX nn) s = .next t ∧ AdcEffect (s.memRead ((nn.toNat + s.X.toNat) % 256)) 2 s t ∧ Uncounted s t) ∧
  (ReadyAt s [0x61, nn] →
    ∃ t, step s = .next t ∧ AdcEffect (s.memRead ((nn.toNat + s.X.toNat) % 256)) 2 s t ∧ Counted 6 s t)

/-- R138: `ADC ($nn),Y`, operand the byte at (pointer at nn) + Y mod 65536, the pointer's high byte at (nn + 1) mod 256. The place of the pointer's high byte at nn = 0xFF is D9 (log 9). -/
def Obligations.AdcIndirectYResult : Prop := ∀ (nn : Byte) (s : State),
  let pointer := (s.memRead ((nn.toNat + 1) % 256)).toNat * 256 + (s.memRead nn.toNat).toNat
  let m := s.memRead ((pointer + s.Y.toNat) % 65536)
  (∃ t, exec (.adcIndY nn) s = .next t ∧ AdcEffect m 2 s t ∧ Uncounted s t) ∧
  (ReadyAt s [0x71, nn] →
    ∃ t, step s = .next t ∧ AdcEffect m 2 s t ∧ Counted 5 s t)

/-- R151: `AND #$nn`, operand the second byte. -/
def Obligations.AndImmediateResult : Prop := ∀ (nn : Byte) (s : State),
  (∃ t, exec (.andImm nn) s = .next t ∧ AndEffect nn 2 s t ∧ Uncounted s t) ∧
  (ReadyAt s [0x29, nn] →
    ∃ t, step s = .next t ∧ AndEffect nn 2 s t ∧ Counted 2 s t)

/-- R152: `AND $nn`, operand the byte at zero-page address nn. -/
def Obligations.AndZeroPageResult : Prop := ∀ (nn : Byte) (s : State),
  (∃ t, exec (.andZp nn) s = .next t ∧ AndEffect (s.memRead nn.toNat) 2 s t ∧ Uncounted s t) ∧
  (ReadyAt s [0x25, nn] →
    ∃ t, step s = .next t ∧ AndEffect (s.memRead nn.toNat) 2 s t ∧ Counted 3 s t)

/-- R153: `AND $nn,X`, operand the byte at zero-page address (nn + X) mod 256. -/
def Obligations.AndZeroPageXResult : Prop := ∀ (nn : Byte) (s : State),
  (∃ t, exec (.andZpX nn) s = .next t ∧ AndEffect (s.memRead ((nn.toNat + s.X.toNat) % 256)) 2 s t ∧ Uncounted s t) ∧
  (ReadyAt s [0x35, nn] →
    ∃ t, step s = .next t ∧ AndEffect (s.memRead ((nn.toNat + s.X.toNat) % 256)) 2 s t ∧ Counted 4 s t)

/-- R154: `AND $hhll`, operand the byte at address hhll. -/
def Obligations.AndAbsoluteResult : Prop := ∀ (hhll : Address) (s : State),
  (∃ t, exec (.andAbs hhll) s = .next t ∧ AndEffect (s.memRead hhll.toNat) 3 s t ∧ Uncounted s t) ∧
  (∀ ll hh : Byte, hhll.toNat = hh.toNat * 256 + ll.toNat → ReadyAt s [0x2D, ll, hh] →
    ∃ t, step s = .next t ∧ AndEffect (s.memRead hhll.toNat) 3 s t ∧ Counted 4 s t)

/-- R155: `AND $hhll,X`, operand the byte at (hhll + X) mod 65536. -/
def Obligations.AndAbsoluteXResult : Prop := ∀ (hhll : Address) (s : State),
  (∃ t, exec (.andAbsX hhll) s = .next t ∧ AndEffect (s.memRead ((hhll.toNat + s.X.toNat) % 65536)) 3 s t ∧ Uncounted s t) ∧
  (∀ ll hh : Byte, hhll.toNat = hh.toNat * 256 + ll.toNat → ReadyAt s [0x3D, ll, hh] →
    ∃ t, step s = .next t ∧ AndEffect (s.memRead ((hhll.toNat + s.X.toNat) % 65536)) 3 s t ∧ Counted 4 s t)

/-- R156: `AND $hhll,Y`, operand the byte at (hhll + Y) mod 65536. -/
def Obligations.AndAbsoluteYResult : Prop := ∀ (hhll : Address) (s : State),
  (∃ t, exec (.andAbsY hhll) s = .next t ∧ AndEffect (s.memRead ((hhll.toNat + s.Y.toNat) % 65536)) 3 s t ∧ Uncounted s t) ∧
  (∀ ll hh : Byte, hhll.toNat = hh.toNat * 256 + ll.toNat → ReadyAt s [0x39, ll, hh] →
    ∃ t, step s = .next t ∧ AndEffect (s.memRead ((hhll.toNat + s.Y.toNat) % 65536)) 3 s t ∧ Counted 4 s t)

/-- R157: `AND ($nn,X)`, operand the byte at zero-page address (nn + X) mod 256, with no pointer read. One level of dereference (C3, log 22). -/
def Obligations.AndIndirectXResult : Prop := ∀ (nn : Byte) (s : State),
  (∃ t, exec (.andIndX nn) s = .next t ∧ AndEffect (s.memRead ((nn.toNat + s.X.toNat) % 256)) 2 s t ∧ Uncounted s t) ∧
  (ReadyAt s [0x21, nn] →
    ∃ t, step s = .next t ∧ AndEffect (s.memRead ((nn.toNat + s.X.toNat) % 256)) 2 s t ∧ Counted 6 s t)

/-- R158: `AND ($nn),Y`, operand the byte at (pointer at nn) + Y mod 65536, the pointer's high byte at (nn + 1) mod 256. The place of the pointer's high byte at nn = 0xFF is D9 (log 9). -/
def Obligations.AndIndirectYResult : Prop := ∀ (nn : Byte) (s : State),
  let pointer := (s.memRead ((nn.toNat + 1) % 256)).toNat * 256 + (s.memRead nn.toNat).toNat
  let m := s.memRead ((pointer + s.Y.toNat) % 65536)
  (∃ t, exec (.andIndY nn) s = .next t ∧ AndEffect m 2 s t ∧ Uncounted s t) ∧
  (ReadyAt s [0x31, nn] →
    ∃ t, step s = .next t ∧ AndEffect m 2 s t ∧ Counted 5 s t)

/-- R170: `JMP $hhll`. The target is not dereferenced, no length advance, no flag. -/
def Obligations.JmpAbsoluteResult : Prop := ∀ (hhll : Address) (s : State),
  (∃ t, exec (.jmpAbs hhll) s = .next t ∧ JmpEffect hhll.toNat s t ∧ Uncounted s t) ∧
  (∀ ll hh : Byte, hhll.toNat = hh.toNat * 256 + ll.toNat → ReadyAt s [0x4C, ll, hh] →
    ∃ t, step s = .next t ∧ JmpEffect hhll.toNat s t ∧ Counted 3 s t)

/-! ### Reset and launch -/

/-- R36, its words "reset only by re-creating the engine" as the last clause: no other event of a
session, step request or host action, lowers a counter. -/
def Obligations.ResetClearsTheCounters : Prop :=
  (State.reset.CYCLES = 0 ∧ State.reset.INSTRET = 0 ∧ State.reset.HALTED = false) ∧
  (∀ s : State, (hostAct .recreateEngine s).CYCLES = 0 ∧ (hostAct .recreateEngine s).INSTRET = 0 ∧
    (hostAct .recreateEngine s).HALTED = false) ∧
  (∀ (es : List SessionEvent) (s t : State), session es s = .next t →
    t.CYCLES < s.CYCLES ∨ t.INSTRET < s.INSTRET → SessionEvent.host .recreateEngine ∈ es)

/-- The register file is created zero-initialized; that PC is included is the spec's decision D14 (log 12). -/
def Obligations.ResetClearsTheRegisterFile : Prop :=
  (∀ r : Reg, State.reset.readReg r = 0) ∧ State.reset.PC = 0 ∧
  ∀ (image : Nat → Byte) (r : Reg), (State.launch image).readReg r = 0 ∧ (State.launch image).PC = 0

/-- After reset memory is the launch image M0, of which nothing is known (D13); and every given image is
held, in the model's canonical form (log 3). -/
def Obligations.LaunchTakesEveryMemoryImage : Prop :=
  (∀ a : Nat, State.reset.memRead a = Config.M0 (a % 65536)) ∧
  ∀ (image : Nat → Byte), (State.launch image).mem.wf = true ∧
    ∀ a : Nat, (State.launch image).memRead a = image (a % 65536)

/-! ### The step -/

/-- The three branches of the step. The halted branch is D12 and the recorded fault is the model's (logs 1, 2, 13). -/
def Obligations.StepRunsTheInstructionAtPC : Prop :=
  ∀ s : State,
    (s.HALTED = true → step s = .next s) ∧
    (s.HALTED = false → itable (s.memRead s.PC.toNat) = none →
      step s = .next { s with
        HALTED := true
        raised := some (.decodeError (s.memRead s.PC.toNat) s.PC) }) ∧
    (∀ i : Instr, ReadyAt s (encode i) →
      step s = match exec i s with
        | .next t => .next { t with CYCLES := t.CYCLES + i.row.cycles, INSTRET := t.INSTRET + 1 }
        | .fault f => .fault f
        | .refused r => .refused r)

/-- What R182 says of the step; that the step answers a next state at all, where R7 and R100 call the
outcome a fault, is the model's choice (log 1). -/
def Obligations.UndefinedOpcodeChangesOnlyTheHalt : Prop :=
  ∀ s : State, s.HALTED = false → itable (s.memRead s.PC.toNat) = none →
    stepReads s = [s.PC] ∧
    ∃ t, step s = .next t ∧ t.HALTED = true ∧ t.A = s.A ∧ t.Y = s.Y ∧ t.X = s.X ∧ t.S = s.S ∧
      t.P = s.P ∧ t.PC = s.PC ∧ (∀ addr, t.memRead addr = s.memRead addr) ∧
      t.CYCLES = s.CYCLES ∧ t.INSTRET = s.INSTRET

/-- When the fault is raised and what it records; that it is taken as a next state is the model's choice (log 1, D12). -/
def Obligations.DecodeErrorIsRaisedExactlyOnUndefinedOpcodes : Prop :=
  ∀ s : State, s.HALTED = false →
    ∃ t, step s = .next t ∧
      (t.HALTED = true ↔ itable (s.memRead s.PC.toNat) = none) ∧
      (t.HALTED = true → t.raised = some (.decodeError (s.memRead s.PC.toNat) s.PC))

/-- Halt is final; that a step request on a halted engine is a no-op is the spec's decision D12 (log 13). -/
def Obligations.HaltedEngineNeverChanges : Prop :=
  ∀ (n : Nat) (s : State), s.HALTED = true →
    stepReads s = [] ∧ Host.Core.run Sys2Proof.core n s = .next s

/-- HALTED is sticky (D12, log 13): the events of a session that leave it must contain a re-creation. -/
def Obligations.HaltEndsOnlyByReCreation : Prop :=
  ∀ (es : List SessionEvent) (s t : State), s.HALTED = true → session es s = .next t →
    t.HALTED = false → SessionEvent.host .recreateEngine ∈ es

/-- R185. That a step which halts does so in a next state is the model's choice (log 1). -/
def Obligations.NoInstructionFaults : Prop :=
  (∀ (i : Instr) (s : State),
    ∃ t, exec i s = .next t ∧ t.HALTED = s.HALTED ∧ t.raised = s.raised) ∧
  (∀ s : State, s.HALTED = false → (itable (s.memRead s.PC.toNat)).isSome = true →
    ∃ t, step s = .next t ∧ t.HALTED = false ∧ t.INSTRET = s.INSTRET + 1)

/-- The invariant of `Safety.lean` is kept by every step, from every state that meets it. The spec's
part is HALTED, PC and the opcode at PC (R32, R181 to R183); the canonical form of memory (log 3) and the
field `raised` (log 2) are the model's own. -/
def Obligations.StepKeepsTheInvariant : Prop :=
  ∀ s t : State, s.Inv → step s = .next t → t.Inv

/-- The invariant holds at reset and at launch with every image. The canonical form of memory (log 3) and
the field `raised` (log 2) it speaks of are the model's own. -/
def Obligations.ResetMeetsTheInvariant : Prop :=
  State.reset.Inv ∧ ∀ image : Nat → Byte, (State.launch image).Inv

/-- No instruction loads X, Y or S (R14, R13), writes I, D, B or bit 5 (R24, R25), or stores (R44). -/
def Obligations.NoStepWritesTheInertState : Prop :=
  ∀ s t : State, step s = .next t →
    t.X = s.X ∧ t.Y = s.Y ∧ t.S = s.S ∧
    (∀ k, k = 2 ∨ k = 3 ∨ k = 4 ∨ k = 5 → t.P.getLsbD k = s.P.getLsbD k) ∧
    ∀ addr, t.memRead addr = s.memRead addr

/-- What R17 says of PC; that the step on an undefined opcode answers a next state at all is the model's
choice (log 1), and the lengths are D5 (log 7). -/
def Obligations.PCAdvancesByTheDeclaredLength : Prop :=
  (∀ (i : Instr) (s : State), i.operation ≠ .jmp →
    ∃ t, exec i s = .next t ∧ t.PC.toNat = (s.PC.toNat + i.row.length) % 65536) ∧
  (∀ (hhll : Address) (s : State), ∃ t, exec (.jmpAbs hhll) s = .next t ∧ t.PC = hhll) ∧
  (∀ i : Instr, i.operation ≠ .jmp → i.row.length = 2 ∨ i.row.length = 3) ∧
  (∀ s : State, s.HALTED = false → itable (s.memRead s.PC.toNat) = none →
    ∃ t, step s = .next t ∧ t.PC = s.PC)

/-! ### Flags -/

/-- R22, with the bit numbers of R20. -/
def Obligations.FlagUpdatesTouchOneBitEach : Prop :=
  (∀ fk, fk ∈ [(Flag.C, 0), (Flag.Z, 1), (Flag.I, 2), (Flag.D, 3), (Flag.B, 4), (Flag.V, 6), (Flag.N, 7)] →
    ∀ (p : Byte) (b : Bool) (k : Nat),
      (setFlag fk.1 b p).getLsbD k = if k = fk.2 then b else p.getLsbD k) ∧
  (∀ (f g : Flag) (b c : Bool) (p : Byte), f ≠ g →
    setFlag f b (setFlag g c p) = setFlag g c (setFlag f b p)) ∧
  (∀ (i : Instr) (s : State), ∃ t, exec i s = .next t ∧
    (∀ k, k = 2 ∨ k = 3 ∨ k = 4 ∨ k = 5 → t.P.getLsbD k = s.P.getLsbD k) ∧
    (i.operation = .and → t.P.getLsbD 0 = s.P.getLsbD 0 ∧ t.P.getLsbD 6 = s.P.getLsbD 6) ∧
    (i.operation = .jmp → t.P = s.P))

/-- R116 (the result byte is A after the instruction, D7, log 10). -/
def Obligations.ZeroAndNegativeFollowTheResult : Prop :=
  ∀ (i : Instr) (s : State), i.operation ≠ .jmp →
    ∃ t, exec i s = .next t ∧ (t.P.getLsbD 1 = true ↔ t.A.toNat = 0) ∧
      (t.P.getLsbD 7 = true ↔ 128 ≤ t.A.toNat) ∧
      ¬ (t.P.getLsbD 1 = true ∧ t.P.getLsbD 7 = true)

/-! ### Laws of ADC and AND -/

/-- A law the spec derives from its ADC rule (R139 a); through A by D7 (log 10). -/
def Obligations.AdcResultAndCarryAreTheExactSum : Prop :=
  ∀ (m : Byte) (s : State), ∃ t, exec (.adcImm m) s = .next t ∧
    256 * (t.P.getLsbD 0).toNat + t.A.toNat =
      s.A.toNat + m.toNat + (s.P.getLsbD 0).toNat

/-- Laws the spec derives (R139 b, R23); through A by D7 (log 10). -/
def Obligations.AdcOverflowIsSignedOverflow : Prop :=
  ∀ (m : Byte) (s : State), ∃ t, exec (.adcImm m) s = .next t ∧
    (t.P.getLsbD 6 = true ↔
      s.A.toInt + m.toInt + ((s.P.getLsbD 0).toNat : Int) < -128 ∨
      127 < s.A.toInt + m.toInt + ((s.P.getLsbD 0).toNat : Int)) ∧
    t.P.getLsbD 6 = ((s.A ^^^ t.A) &&& (m ^^^ t.A)).getLsbD 7

/-- A law the spec derives (R139 e). -/
def Obligations.AdcIsSymmetricInItsOperands : Prop :=
  ∀ (a m : Byte) (s : State), ∃ t u, exec (.adcImm m) { s with A := a } = .next t ∧
    exec (.adcImm a) { s with A := m } = .next u ∧ t = u

/-- A law the spec derives (R139 f). -/
def Obligations.TwoByteAdditionChainsThroughCarry : Prop :=
  ∀ (x y : Address) (s u : State), s.A.toNat = x.toNat % 256 → s.P.getLsbD 0 = false →
    ∃ t, exec (.adcImm (lowByte y)) s = .next t ∧
      (u.A.toNat = x.toNat / 256 → u.P.getLsbD 0 = t.P.getLsbD 0 →
        ∃ v, exec (.adcImm (highByte y)) u = .next v ∧
          65536 * (v.P.getLsbD 0).toNat + 256 * v.A.toNat + t.A.toNat = x.toNat + y.toNat)

/-- The laws the spec derives of its AND rule (R159 a to f). -/
def Obligations.AndLawsOfTheSpec : Prop :=
  ∀ (m : Byte) (s : State), ∃ t, exec (.andImm m) s = .next t ∧
    (t.A.toNat ≤ s.A.toNat ∧ t.A.toNat ≤ m.toNat) ∧
    (∀ k, t.A.getLsbD k = true → s.A.getLsbD k = true ∧ m.getLsbD k = true) ∧
    t.P.getLsbD 7 = (s.A.getLsbD 7 && m.getLsbD 7) ∧
    (t.P.getLsbD 1 = true ↔ ∀ k, ¬ (s.A.getLsbD k = true ∧ m.getLsbD k = true)) ∧
    (m = 0x00 → t.A = 0 ∧ t.P.getLsbD 1 = true ∧ t.P.getLsbD 7 = false) ∧
    (m = 0xFF → t.A = s.A) ∧
    (∃ u, exec (.andImm m) t = .next u ∧ u.A = t.A ∧ u.P = t.P) ∧
    t.P.getLsbD 0 = s.P.getLsbD 0 ∧ t.P.getLsbD 6 = s.P.getLsbD 6

/-! ### Addressing -/

/-- One level of dereference: the two modes deliver the same operand (C3, log 22). Their costs 6 and 4
are the spec's decision D6 (log 6). -/
def Obligations.IndirectXDeliversTheZeroPageXOperand : Prop :=
  ∀ (d8 : Byte) (s : State),
    exec (.adcIndX d8) s = exec (.adcZpX d8) s ∧ exec (.andIndX d8) s = exec (.andZpX d8) s ∧
    (Instr.adcIndX d8).row.cycles = 6 ∧ (Instr.adcZpX d8).row.cycles = 4 ∧
    (Instr.andIndX d8).row.cycles = 6 ∧ (Instr.andZpX d8).row.cycles = 4

/-- Both values of PTR_HI_WRAP (D9, log 9). -/
def Obligations.PointerWrapReadingsDifferOnlyAtFF : Prop :=
  ∀ za : Byte,
    ((pointerHighAddress .zp za = pointerHighAddress .linear za) ↔ za ≠ 0xFF) ∧
    (za = 0xFF → pointerHighAddress .zp za = 0x0000 ∧ pointerHighAddress .linear za = 0x0100) ∧
    (za ≠ 0xFF → (pointerHighAddress .zp za).toNat = za.toNat + 1)

/-- A mode reads exactly the bytes its pseudocode names, and no instruction writes memory: changing any other byte changes nothing a step does (R113 b, R114; the list of reads is D11, log 23). -/
def Obligations.StepDependsOnlyOnTheBytesItReads : Prop :=
  ∀ (s t : State) (m : Memory),
    (∀ a, a ∈ stepReads s → m.read a.toNat = s.mem.read a.toNat) → step s = .next t →
    step { s with mem := m } = .next { t with mem := m }

/-- S has no role (R13), I, D, B and bit 5 are storage only (R24, R25), ADC is binary whatever D is (R26,
D10, log 11), and no rule reads the counters (R81). The two states agree in the model's own field `raised`
too (log 2), before and after. -/
def Obligations.InertStateHasNoInfluence : Prop :=
  ∀ s s' t : State, SameButInert s s' → step s = .next t →
    ∃ t', step s' = .next t' ∧ SameButInert t t'

/-! ### Encoding and the table -/

/-- The 239 illegal bytes (D2, D3, log 5). -/
def Obligations.OnlySeventeenOpcodesAreDefined : Prop :=
  definedOpcodes.length = 17 ∧
  ∀ op : Byte, (itable op).isSome = true ↔ op ∈ definedOpcodes

/-- A word of each family, from the examples of the spec's mode rules (opcode bytes: D2, log 5). -/
def Obligations.DecoderReadsWordsOfTheSpec : Prop :=
  decode [0x69, 0x0A] = .ok (.adcImm 0x0A, []) ∧
  decode [0x7D, 0xF0, 0xFF] = .ok (.adcAbsX 0xFFF0, []) ∧
  decode [0x21, 0x10] = .ok (.andIndX 0x10, []) ∧
  decode [0x39, 0x00, 0x20] = .ok (.andAbsY 0x2000, []) ∧
  decode [0x4C, 0x00, 0x02] = .ok (.jmpAbs 0x0200, []) ∧
  decode [0xEA] = .error (.undefinedOpcode 0xEA)

/-- Every instruction, every operand value, any bytes after it (R70, R74). -/
def Obligations.DecodeInvertsEncode : Prop :=
  ∀ (i : Instr) (rest : List Byte), decode (encode i ++ rest) = .ok (i, rest)

/-- Each word has one meaning: no bit of an accepted word is dropped (R70, R71, R74). -/
def Obligations.EncodeInvertsDecode : Prop :=
  ∀ (bytes rest : List Byte) (i : Instr), decode bytes = .ok (i, rest) →
    encode i ++ rest = bytes ∧ i.wf definitions = true

/-- Only the opcode byte is checked (R84, R85); operand bytes are never illegal. -/
def Obligations.DecoderRejectsForNamedReasonsOnly : Prop :=
  ∀ bytes : List Byte,
    (decode bytes = .error .noBytes ↔ bytes = []) ∧
    (∀ op, decode bytes = .error (.undefinedOpcode op) ↔
      bytes.head? = some op ∧ itable op = none) ∧
    (∀ op, decode bytes = .error (.truncated op) ↔
      bytes.head? = some op ∧ ∃ d, itable op = some d ∧ bytes.length < d.length) ∧
    (∀ op, decode bytes ≠ .error (.noBehavior op))

/-- R76. -/
def Obligations.TableExistsExactlyWhenOpcodesAreDistinct : Prop :=
  ∀ ds : List InstrDef,
    ((InstrTable.build ds).isSome = true ↔ (ds.map InstrDef.opcode).Nodup) ∧
    (∀ t, InstrTable.build ds = some t →
      t = ds ∧ ∀ d, d ∈ ds → t.lookup d.opcode = some d)

/-! ### Memory and the host -/

/-- R44. -/
def Obligations.MemoryWriteChangesOneByteOnly : Prop :=
  (∀ (s : State) (addr v b : Nat),
    ((hostAct (.writeByte addr v) s).memRead b).toNat =
      if b % 65536 = addr % 65536 then v % 256 else (s.memRead b).toNat) ∧
  (∀ (i : Instr) (s : State), ∃ t, exec i s = .next t ∧ ∀ b, t.memRead b = s.memRead b)

/-- No prefetch (R57, R45): whatever stood there, an instruction whose bytes, opcode included, the host
writes from PC on is what the very next step runs, in the state with those bytes in memory; and a write
over the operand byte alone of an instruction that was already there is seen too (ADC immediate: opcode
byte D2, result in A D7; logs 5, 10). -/
def Obligations.HostWriteIsSeenByTheNextFetch : Prop :=
  (∀ (i : Instr) (s : State), s.HALTED = false →
    let u := hostWrites s.PC.toNat (encode i) s
    u = { s with mem := u.mem } ∧
    (∀ k b, (encode i)[k]? = some b → u.memRead (s.PC.toNat + k) = b) ∧
    (∀ a, (∀ k, k < (encode i).length → a % 65536 ≠ (s.PC.toNat + k) % 65536) →
      u.memRead a = s.memRead a) ∧
    ∃ t, exec i u = .next t ∧
      step u = .next { t with CYCLES := t.CYCLES + i.row.cycles, INSTRET := t.INSTRET + 1 }) ∧
  (∀ (s : State) (nn v : Byte), ReadyAt s [0x69, nn] →
    ∃ t, step (hostAct (.writeByte (s.PC.toNat + 1) v.toNat) s) = .next t ∧
      t.A.toNat = (s.A.toNat + v.toNat + (s.P.getLsbD 0).toNat) % 256)

/-- R12, as the host writes; the five cells are distinct storage (R10). -/
def Obligations.CellWriteStoresModulo256 : Prop :=
  ∀ (s : State) (r q : Reg) (v : Nat),
    ((hostAct (.writeReg r v) s).readReg q).toNat =
      (if q = r then v % 256 else (s.readReg q).toNat) ∧
    (s.readReg q).toNat ≤ 255

/-- R16. -/
def Obligations.PCWritesWrapModuloMemsize : Prop :=
  (∀ (s : State) (n : Nat), (hostAct (.writePC n) s).PC.toNat = n % 65536 ∧
    ∀ r : Reg, (hostAct (.writePC n) s).readReg r = s.readReg r) ∧
  (∀ (i : Instr) (s : State), i.row.length = 2 → s.PC = 0xFFFF →
    s.readBytes s.PC.toNat 2 = [s.memRead 0xFFFF, s.memRead 0x0000] ∧
    ∃ t, exec i s = .next t ∧ t.PC = 0x0001)

/-- R41. -/
def Obligations.EveryAddressWraps : Prop :=
  ∀ (s : State) (addr k v : Nat),
    s.memRead (addr + k * 65536) = s.memRead addr ∧
    hostAct (.writeByte (addr + k * 65536) v) s = hostAct (.writeByte addr v) s

/-- The model's representation (log 3): with the invariant of steps, memory stays canonical in every session. -/
def Obligations.HostActionsKeepMemoryCanonical : Prop :=
  ∀ (es : List SessionEvent) (s t : State), s.mem.wf = true → session es s = .next t →
    t.mem.wf = true

/-- The model's representation (log 3): canonical memories that know the same addresses and read alike are
the same data. -/
def Obligations.EqualReadsAreEqualMemories : Prop :=
  ∀ s t : State, s.mem.wf = true → t.mem.wf = true →
    (∀ a, (s.mem.get a).isSome = (t.mem.get a).isSome) →
    (∀ addr, s.memRead addr = t.memRead addr) → s.mem = t.mem

/-- That the memory survives is the spec's decision D13 (log 19). -/
def Obligations.ReCreationKeepsMemoryAndClearsTheRest : Prop :=
  ∀ s : State, hostAct .recreateEngine s = { State.reset with mem := s.mem }

/-! ### Runs -/

/-- Exactly one instruction per step (R100); the costs are D6 (log 6). -/
def Obligations.RunCountsOneInstructionPerStep : Prop :=
  ∀ (n : Nat) (s t : State), Host.Core.run Sys2Proof.core n s = .next t → t.HALTED = false →
    t.INSTRET = s.INSTRET + n ∧ s.CYCLES + 2 * n ≤ t.CYCLES ∧ t.CYCLES ≤ s.CYCLES + 6 * n

/-- A decode error (R216's way (a) to end a run; its way (b), the host stopping the Clock, is that no
further step is requested) is final, so the last state of a run tells whether one of its steps raised it.
The clause for a halted start: nothing is raised, nothing happens (D12, log 13), and the run is not called
safe, which is the model's convention. -/
def Obligations.SafeRunIsOneThatDoesNotEndHalted : Prop :=
  ∀ (n : Nat) (s : State),
    (safeFor n s ↔ ∃ t, Host.Core.run Sys2Proof.core n s = .next t ∧ t.HALTED = false) ∧
    (s.HALTED = false →
      (safeFor n s ↔ ∀ k u, k < n → Host.Core.run Sys2Proof.core k s = .next u → ¬ RaisesNext u)) ∧
    (s.HALTED = true → ¬ safeFor n s ∧
      ∀ k u, Host.Core.run Sys2Proof.core k s = .next u → u = s ∧ ¬ RaisesNext u)

/-- The Clock's frame (R227, R229); it stands outside the block (D24, log 20). The model's own choices in
it: a frame is counted and ends in the same way when the engine is halted, or halts inside it, which R234
leaves open (log 26), and the frequencies and the duration are natural numbers (log 28). -/
def Obligations.ClockFrameIsAllOrNothing : Prop :=
  ∀ (c : Clock) (durationMs : Nat) (s : State),
    (c.busy = true → c.frame durationMs s = (c, .next s)) ∧
    (c.busy = false →
      (c.frame durationMs s).2 = Host.Core.run Sys2Proof.core c.cyclesPerFrame s ∧
      (c.frame durationMs s).1.frames = c.frames + 1 ∧ (c.frame durationMs s).1.busy = false)
end

