-- ==== Sys2Proof/Laws/PerInstr.lean ====
section
/-! SUPPORT. What is said of every instruction as syntax, one lemma per constructor. -/

namespace Sys2Proof.Laws.EncodingRow

/-- The instruction's row is the table's definition of its opcode, is a definition of its operation
and mode, and declares the length of its encoding (R72, R76, R80, R101). -/
def Statement (i : Instr) : Prop :=
  itable i.row.opcode = some i.row ∧ i.row.behavior = i.operation ∧ i.row.mode = i.mode ∧
    (encode i).length = i.row.length

theorem adcImm (d8 : Byte) : Statement (.adcImm d8) := ⟨rfl, rfl, rfl, rfl⟩
theorem adcZp (d8 : Byte) : Statement (.adcZp d8) := ⟨rfl, rfl, rfl, rfl⟩
theorem adcZpX (d8 : Byte) : Statement (.adcZpX d8) := ⟨rfl, rfl, rfl, rfl⟩
theorem adcAbs (abs16 : Address) : Statement (.adcAbs abs16) := ⟨rfl, rfl, rfl, rfl⟩
theorem adcAbsX (abs16 : Address) : Statement (.adcAbsX abs16) := ⟨rfl, rfl, rfl, rfl⟩
theorem adcAbsY (abs16 : Address) : Statement (.adcAbsY abs16) := ⟨rfl, rfl, rfl, rfl⟩
theorem adcIndX (d8 : Byte) : Statement (.adcIndX d8) := ⟨rfl, rfl, rfl, rfl⟩
theorem adcIndY (d8 : Byte) : Statement (.adcIndY d8) := ⟨rfl, rfl, rfl, rfl⟩
theorem andImm (d8 : Byte) : Statement (.andImm d8) := ⟨rfl, rfl, rfl, rfl⟩
theorem andZp (d8 : Byte) : Statement (.andZp d8) := ⟨rfl, rfl, rfl, rfl⟩
theorem andZpX (d8 : Byte) : Statement (.andZpX d8) := ⟨rfl, rfl, rfl, rfl⟩
theorem andAbs (abs16 : Address) : Statement (.andAbs abs16) := ⟨rfl, rfl, rfl, rfl⟩
theorem andAbsX (abs16 : Address) : Statement (.andAbsX abs16) := ⟨rfl, rfl, rfl, rfl⟩
theorem andAbsY (abs16 : Address) : Statement (.andAbsY abs16) := ⟨rfl, rfl, rfl, rfl⟩
theorem andIndX (d8 : Byte) : Statement (.andIndX d8) := ⟨rfl, rfl, rfl, rfl⟩
theorem andIndY (d8 : Byte) : Statement (.andIndY d8) := ⟨rfl, rfl, rfl, rfl⟩
theorem jmpAbs (abs16 : Address) : Statement (.jmpAbs abs16) := ⟨rfl, rfl, rfl, rfl⟩

end Sys2Proof.Laws.EncodingRow
end

