-- ==== Sys2Proof/Laws/Decode.lean ====
section
/-! SUPPORT. The table lookup, the two bytes of a 16-bit value, and decoding with a definition in
hand. -/

namespace Sys2Proof

theorem assembleWord_toNat (lo hi : Byte) :
    (assembleWord lo hi).toNat = hi.toNat * 256 + lo.toNat := by
  have h1 := lo.isLt
  have h2 := hi.isLt
  simp [assembleWord]; omega

theorem lowByte_toNat (v : Address) : (lowByte v).toNat = v.toNat % 256 := by
  simp [lowByte]

theorem highByte_toNat (v : Address) : (highByte v).toNat = v.toNat / 256 := by
  have := v.isLt
  simp [highByte]; omega

@[simp] theorem assembleWord_lowByte_highByte (v : Address) :
    assembleWord (lowByte v) (highByte v) = v := by
  apply BitVec.eq_of_toNat_eq
  rw [assembleWord_toNat, lowByte_toNat, highByte_toNat]
  omega

@[simp] theorem lowByte_assembleWord (lo hi : Byte) : lowByte (assembleWord lo hi) = lo := by
  have := lo.isLt
  apply BitVec.eq_of_toNat_eq
  rw [lowByte_toNat, assembleWord_toNat]
  omega

@[simp] theorem highByte_assembleWord (lo hi : Byte) : highByte (assembleWord lo hi) = hi := by
  have := lo.isLt
  apply BitVec.eq_of_toNat_eq
  rw [highByte_toNat, assembleWord_toNat]
  omega

/-- A lookup answers a definition of the table with the opcode that was looked up (R76). -/
theorem InstrTable.lookup_some {t : InstrTable} {op : Byte} {d : InstrDef}
    (h : t.lookup op = some d) : d ∈ t ∧ d.opcode = op := by
  unfold InstrTable.lookup at h
  exact ⟨List.mem_of_find?_eq_some h, by simpa using List.find?_some h⟩

theorem InstrTable.lookup_none {t : InstrTable} {op : Byte} :
    t.lookup op = none ↔ ∀ d ∈ t, d.opcode ≠ op := by
  simp [InstrTable.lookup]

/-- The instruction a definition of the hardware's table gives: its row is that definition. -/
theorem instrOf_row {d : InstrDef} (hd : d ∈ definitions) (b1 b2 : Byte) :
    ∃ i, instrOf d.behavior d.mode b1 b2 = some i ∧ i.row = d ∧
      i.operandField = [b1, b2].take d.mode.operandBytes := by
  simp only [definitions, List.cons_append, List.nil_append, List.mem_cons, List.not_mem_nil,
    or_false] at hd
  rcases hd with h | h | h | h | h | h | h | h | h | h | h | h | h | h | h | h | h <;> subst h <;>
    exact ⟨_, rfl, rfl, by simp [Instr.operandField, Mode.operandBytes, rowAdcImm, rowAdcZp,
      rowAdcZpX, rowAdcAbs, rowAdcAbsX, rowAdcAbsY, rowAdcIndX, rowAdcIndY, rowAndImm, rowAndZp,
      rowAndZpX, rowAndAbs, rowAndAbsX, rowAndAbsY, rowAndIndX, rowAndIndY, rowJmpAbs]⟩

end Sys2Proof
end

