-- ==== Sys2Proof/Laws/Flags.lean ====
section
/-! SUPPORT. What setting a flag does to each bit of P (R22), and the bits of P after the updates of
the instructions (R116, R130, R150). -/

namespace Sys2Proof.Machine

theorem flagBit_lt (f : Flag) : flagBit f < 8 := by cases f <;> decide

theorem flagMask_getLsbD (f : Flag) (k : Nat) :
    (flagMask f).getLsbD k = decide (k = flagBit f) := by
  have hk : k < 8 ∨ 8 ≤ k := by omega
  rcases hk with hk | hk
  · interval_cases k <;> cases f <;> decide
  · have := flagBit_lt f
    rw [BitVec.getLsbD_of_ge _ _ hk]
    simp; omega

theorem zeroOf_eq_decide (r : Byte) : zeroOf r = decide (r.toNat = 0) := by
  rw [zeroOf, Bool.eq_iff_iff]
  simp [← BitVec.toNat_inj]

/-- `SetFlag(f, b)` writes the flag's bit and no other (R22). -/
theorem setFlag_getLsbD (f : Flag) (b : Bool) (p : Byte) (k : Nat) :
    (setFlag f b p).getLsbD k = if k = flagBit f then b else p.getLsbD k := by
  have hf := flagBit_lt f
  unfold setFlag
  by_cases hk : k = flagBit f
  · subst hk
    cases b <;> simp [flagMask_getLsbD]
  · have hm := flagMask_getLsbD f k
    simp only [hk, decide_false] at hm
    by_cases h8 : k < 8
    · cases b <;> simp [BitVec.getLsbD_and, BitVec.getLsbD_or, BitVec.getLsbD_not, hm, hk, h8,
        -BitVec.getLsbD_eq_getElem]
    · have h8' : 8 ≤ k := by omega
      cases b <;> simp [hk, BitVec.getLsbD_of_ge _ _ h8']

theorem setNZ_getLsbD (r p : Byte) (k : Nat) :
    (setNZ r p).getLsbD k =
      if k = 7 then negativeOf r else if k = 1 then zeroOf r else p.getLsbD k := by
  simp only [setNZ, setFlag_getLsbD, flagBit]
  rfl

/-- Every bit of P after add-with-carry (R130). -/
theorem adcStatus_getLsbD (a m p : Byte) (k : Nat) :
    (adcStatus a m p).getLsbD k =
      if k = 7 then negativeOf (adcResult a m (readFlag .C p))
      else if k = 1 then zeroOf (adcResult a m (readFlag .C p))
      else if k = 6 then overflowOf a m (adcResult a m (readFlag .C p))
      else if k = 0 then carryOf a m (readFlag .C p)
      else p.getLsbD k := by
  simp only [adcStatus, setNZ_getLsbD, setFlag_getLsbD, flagBit]
  rfl

/-- Every bit of P after logical AND (R150). -/
theorem andStatus_getLsbD (r p : Byte) (k : Nat) :
    (andStatus r p).getLsbD k =
      if k = 7 then negativeOf r else if k = 1 then zeroOf r else p.getLsbD k :=
  setNZ_getLsbD r p k

/-- The result byte of add-with-carry as a number (R130). -/
theorem adcResult_toNat (a m : Byte) (c : Bool) :
    (adcResult a m c).toNat = (a.toNat + m.toNat + c.toNat) % 256 := by
  simp [adcResult, adcSum]

end Sys2Proof.Machine
end

