-- ==== Sys2Proof/Laws/State.lean ====
section
/-! SUPPORT. What each update of State does to each field, so that no proof unfolds a record update. -/

namespace Sys2Proof.Machine

/-! ### Memory write -/

@[simp] theorem State.memWrite_A (s : State) (a v : Nat) : (s.memWrite a v).A = s.A := rfl
@[simp] theorem State.memWrite_Y (s : State) (a v : Nat) : (s.memWrite a v).Y = s.Y := rfl
@[simp] theorem State.memWrite_X (s : State) (a v : Nat) : (s.memWrite a v).X = s.X := rfl
@[simp] theorem State.memWrite_S (s : State) (a v : Nat) : (s.memWrite a v).S = s.S := rfl
@[simp] theorem State.memWrite_P (s : State) (a v : Nat) : (s.memWrite a v).P = s.P := rfl
@[simp] theorem State.memWrite_PC (s : State) (a v : Nat) : (s.memWrite a v).PC = s.PC := rfl
@[simp] theorem State.memWrite_mem (s : State) (a v : Nat) : (s.memWrite a v).mem = s.mem.put (wrapAddress a).toNat (BitVec.ofNat 8 v) := rfl
@[simp] theorem State.memWrite_CYCLES (s : State) (a v : Nat) : (s.memWrite a v).CYCLES = s.CYCLES := rfl
@[simp] theorem State.memWrite_INSTRET (s : State) (a v : Nat) : (s.memWrite a v).INSTRET = s.INSTRET := rfl
@[simp] theorem State.memWrite_HALTED (s : State) (a v : Nat) : (s.memWrite a v).HALTED = s.HALTED := rfl
@[simp] theorem State.memWrite_raised (s : State) (a v : Nat) : (s.memWrite a v).raised = s.raised := rfl

/-! ### Program counter -/

@[simp] theorem State.writePC_A (s : State) (t : Nat) : (s.writePC t).A = s.A := rfl
@[simp] theorem State.writePC_Y (s : State) (t : Nat) : (s.writePC t).Y = s.Y := rfl
@[simp] theorem State.writePC_X (s : State) (t : Nat) : (s.writePC t).X = s.X := rfl
@[simp] theorem State.writePC_S (s : State) (t : Nat) : (s.writePC t).S = s.S := rfl
@[simp] theorem State.writePC_P (s : State) (t : Nat) : (s.writePC t).P = s.P := rfl
@[simp] theorem State.writePC_PC (s : State) (t : Nat) : (s.writePC t).PC = wrapAddress t := rfl
@[simp] theorem State.writePC_mem (s : State) (t : Nat) : (s.writePC t).mem = s.mem := rfl
@[simp] theorem State.writePC_CYCLES (s : State) (t : Nat) : (s.writePC t).CYCLES = s.CYCLES := rfl
@[simp] theorem State.writePC_INSTRET (s : State) (t : Nat) : (s.writePC t).INSTRET = s.INSTRET := rfl
@[simp] theorem State.writePC_HALTED (s : State) (t : Nat) : (s.writePC t).HALTED = s.HALTED := rfl
@[simp] theorem State.writePC_raised (s : State) (t : Nat) : (s.writePC t).raised = s.raised := rfl

/-! ### ADC_core -/

@[simp] theorem State.adcCore_A (s : State) (m : Byte) : (s.adcCore m).A = adcResult s.A m (readFlag .C s.P) := rfl
@[simp] theorem State.adcCore_Y (s : State) (m : Byte) : (s.adcCore m).Y = s.Y := rfl
@[simp] theorem State.adcCore_X (s : State) (m : Byte) : (s.adcCore m).X = s.X := rfl
@[simp] theorem State.adcCore_S (s : State) (m : Byte) : (s.adcCore m).S = s.S := rfl
@[simp] theorem State.adcCore_P (s : State) (m : Byte) : (s.adcCore m).P = adcStatus s.A m s.P := rfl
@[simp] theorem State.adcCore_PC (s : State) (m : Byte) : (s.adcCore m).PC = s.PC := rfl
@[simp] theorem State.adcCore_mem (s : State) (m : Byte) : (s.adcCore m).mem = s.mem := rfl
@[simp] theorem State.adcCore_CYCLES (s : State) (m : Byte) : (s.adcCore m).CYCLES = s.CYCLES := rfl
@[simp] theorem State.adcCore_INSTRET (s : State) (m : Byte) : (s.adcCore m).INSTRET = s.INSTRET := rfl
@[simp] theorem State.adcCore_HALTED (s : State) (m : Byte) : (s.adcCore m).HALTED = s.HALTED := rfl
@[simp] theorem State.adcCore_raised (s : State) (m : Byte) : (s.adcCore m).raised = s.raised := rfl

/-! ### AND_core -/

@[simp] theorem State.andCore_A (s : State) (m : Byte) : (s.andCore m).A = s.A &&& m := rfl
@[simp] theorem State.andCore_Y (s : State) (m : Byte) : (s.andCore m).Y = s.Y := rfl
@[simp] theorem State.andCore_X (s : State) (m : Byte) : (s.andCore m).X = s.X := rfl
@[simp] theorem State.andCore_S (s : State) (m : Byte) : (s.andCore m).S = s.S := rfl
@[simp] theorem State.andCore_P (s : State) (m : Byte) : (s.andCore m).P = andStatus (s.A &&& m) s.P := rfl
@[simp] theorem State.andCore_PC (s : State) (m : Byte) : (s.andCore m).PC = s.PC := rfl
@[simp] theorem State.andCore_mem (s : State) (m : Byte) : (s.andCore m).mem = s.mem := rfl
@[simp] theorem State.andCore_CYCLES (s : State) (m : Byte) : (s.andCore m).CYCLES = s.CYCLES := rfl
@[simp] theorem State.andCore_INSTRET (s : State) (m : Byte) : (s.andCore m).INSTRET = s.INSTRET := rfl
@[simp] theorem State.andCore_HALTED (s : State) (m : Byte) : (s.andCore m).HALTED = s.HALTED := rfl
@[simp] theorem State.andCore_raised (s : State) (m : Byte) : (s.andCore m).raised = s.raised := rfl

/-! ### Counting -/

@[simp] theorem State.retire_A (s : State) (d : InstrDef) : (s.retire d).A = s.A := rfl
@[simp] theorem State.retire_Y (s : State) (d : InstrDef) : (s.retire d).Y = s.Y := rfl
@[simp] theorem State.retire_X (s : State) (d : InstrDef) : (s.retire d).X = s.X := rfl
@[simp] theorem State.retire_S (s : State) (d : InstrDef) : (s.retire d).S = s.S := rfl
@[simp] theorem State.retire_P (s : State) (d : InstrDef) : (s.retire d).P = s.P := rfl
@[simp] theorem State.retire_PC (s : State) (d : InstrDef) : (s.retire d).PC = s.PC := rfl
@[simp] theorem State.retire_mem (s : State) (d : InstrDef) : (s.retire d).mem = s.mem := rfl
@[simp] theorem State.retire_CYCLES (s : State) (d : InstrDef) : (s.retire d).CYCLES = s.CYCLES + d.cycles := rfl
@[simp] theorem State.retire_INSTRET (s : State) (d : InstrDef) : (s.retire d).INSTRET = s.INSTRET + 1 := rfl
@[simp] theorem State.retire_HALTED (s : State) (d : InstrDef) : (s.retire d).HALTED = s.HALTED := rfl
@[simp] theorem State.retire_raised (s : State) (d : InstrDef) : (s.retire d).raised = s.raised := rfl

/-! ### Taking DecodeError -/

@[simp] theorem State.takeDecodeError_A (s : State) (op : Byte) : (s.takeDecodeError op).A = s.A := rfl
@[simp] theorem State.takeDecodeError_Y (s : State) (op : Byte) : (s.takeDecodeError op).Y = s.Y := rfl
@[simp] theorem State.takeDecodeError_X (s : State) (op : Byte) : (s.takeDecodeError op).X = s.X := rfl
@[simp] theorem State.takeDecodeError_S (s : State) (op : Byte) : (s.takeDecodeError op).S = s.S := rfl
@[simp] theorem State.takeDecodeError_P (s : State) (op : Byte) : (s.takeDecodeError op).P = s.P := rfl
@[simp] theorem State.takeDecodeError_PC (s : State) (op : Byte) : (s.takeDecodeError op).PC = s.PC := rfl
@[simp] theorem State.takeDecodeError_mem (s : State) (op : Byte) : (s.takeDecodeError op).mem = s.mem := rfl
@[simp] theorem State.takeDecodeError_CYCLES (s : State) (op : Byte) : (s.takeDecodeError op).CYCLES = s.CYCLES := rfl
@[simp] theorem State.takeDecodeError_INSTRET (s : State) (op : Byte) : (s.takeDecodeError op).INSTRET = s.INSTRET := rfl
@[simp] theorem State.takeDecodeError_HALTED (s : State) (op : Byte) : (s.takeDecodeError op).HALTED = true := rfl
@[simp] theorem State.takeDecodeError_raised (s : State) (op : Byte) : (s.takeDecodeError op).raised = some (.decodeError op s.PC) := rfl

/-! ### The common tail -/

@[simp] theorem State.advance_A (s : State) (d : InstrDef) : (s.advance d).A = s.A := by
  unfold State.advance; split <;> rfl
@[simp] theorem State.advance_Y (s : State) (d : InstrDef) : (s.advance d).Y = s.Y := by
  unfold State.advance; split <;> rfl
@[simp] theorem State.advance_X (s : State) (d : InstrDef) : (s.advance d).X = s.X := by
  unfold State.advance; split <;> rfl
@[simp] theorem State.advance_S (s : State) (d : InstrDef) : (s.advance d).S = s.S := by
  unfold State.advance; split <;> rfl
@[simp] theorem State.advance_P (s : State) (d : InstrDef) : (s.advance d).P = s.P := by
  unfold State.advance; split <;> rfl
@[simp] theorem State.advance_PC (s : State) (d : InstrDef) : (s.advance d).PC = if isControlTransfer d.behavior then s.PC else wrapAddress (s.PC.toNat + d.length) := by
  unfold State.advance; split <;> rfl
@[simp] theorem State.advance_mem (s : State) (d : InstrDef) : (s.advance d).mem = s.mem := by
  unfold State.advance; split <;> rfl
@[simp] theorem State.advance_CYCLES (s : State) (d : InstrDef) : (s.advance d).CYCLES = s.CYCLES := by
  unfold State.advance; split <;> rfl
@[simp] theorem State.advance_INSTRET (s : State) (d : InstrDef) : (s.advance d).INSTRET = s.INSTRET := by
  unfold State.advance; split <;> rfl
@[simp] theorem State.advance_HALTED (s : State) (d : InstrDef) : (s.advance d).HALTED = s.HALTED := by
  unfold State.advance; split <;> rfl
@[simp] theorem State.advance_raised (s : State) (d : InstrDef) : (s.advance d).raised = s.raised := by
  unfold State.advance; split <;> rfl

/-! ### A register cell -/

@[simp] theorem State.writeReg_A_self (s : State) (v : Nat) :
    (s.writeReg .A v).A = BitVec.ofNat 8 v := rfl
@[simp] theorem State.writeReg_Y_self (s : State) (v : Nat) :
    (s.writeReg .Y v).Y = BitVec.ofNat 8 v := rfl
@[simp] theorem State.writeReg_X_self (s : State) (v : Nat) :
    (s.writeReg .X v).X = BitVec.ofNat 8 v := rfl
@[simp] theorem State.writeReg_S_self (s : State) (v : Nat) :
    (s.writeReg .S v).S = BitVec.ofNat 8 v := rfl
@[simp] theorem State.writeReg_P_self (s : State) (v : Nat) :
    (s.writeReg .P v).P = BitVec.ofNat 8 v := rfl

@[simp] theorem State.writeReg_PC (s : State) (r : Reg) (v : Nat) :
    (s.writeReg r v).PC = s.PC := by cases r <;> rfl
@[simp] theorem State.writeReg_mem (s : State) (r : Reg) (v : Nat) :
    (s.writeReg r v).mem = s.mem := by cases r <;> rfl
@[simp] theorem State.writeReg_CYCLES (s : State) (r : Reg) (v : Nat) :
    (s.writeReg r v).CYCLES = s.CYCLES := by cases r <;> rfl
@[simp] theorem State.writeReg_INSTRET (s : State) (r : Reg) (v : Nat) :
    (s.writeReg r v).INSTRET = s.INSTRET := by cases r <;> rfl
@[simp] theorem State.writeReg_HALTED (s : State) (r : Reg) (v : Nat) :
    (s.writeReg r v).HALTED = s.HALTED := by cases r <;> rfl
@[simp] theorem State.writeReg_raised (s : State) (r : Reg) (v : Nat) :
    (s.writeReg r v).raised = s.raised := by cases r <;> rfl

theorem State.readReg_writeReg (s : State) (r q : Reg) (v : Nat) :
    (s.writeReg r v).readReg q = if q = r then BitVec.ofNat 8 v else s.readReg q := by
  cases r <;> cases q <;> rfl

/-! ### Several bytes -/

@[simp] theorem State.memWriteBytes_A (s : State) (a : Nat) (bs : List Byte) :
    (s.memWriteBytes a bs).A = s.A := by
  induction bs generalizing s a with
  | nil => rfl
  | cons b bs ih => simp [State.memWriteBytes, ih]
@[simp] theorem State.memWriteBytes_Y (s : State) (a : Nat) (bs : List Byte) :
    (s.memWriteBytes a bs).Y = s.Y := by
  induction bs generalizing s a with
  | nil => rfl
  | cons b bs ih => simp [State.memWriteBytes, ih]
@[simp] theorem State.memWriteBytes_X (s : State) (a : Nat) (bs : List Byte) :
    (s.memWriteBytes a bs).X = s.X := by
  induction bs generalizing s a with
  | nil => rfl
  | cons b bs ih => simp [State.memWriteBytes, ih]
@[simp] theorem State.memWriteBytes_S (s : State) (a : Nat) (bs : List Byte) :
    (s.memWriteBytes a bs).S = s.S := by
  induction bs generalizing s a with
  | nil => rfl
  | cons b bs ih => simp [State.memWriteBytes, ih]
@[simp] theorem State.memWriteBytes_P (s : State) (a : Nat) (bs : List Byte) :
    (s.memWriteBytes a bs).P = s.P := by
  induction bs generalizing s a with
  | nil => rfl
  | cons b bs ih => simp [State.memWriteBytes, ih]
@[simp] theorem State.memWriteBytes_PC (s : State) (a : Nat) (bs : List Byte) :
    (s.memWriteBytes a bs).PC = s.PC := by
  induction bs generalizing s a with
  | nil => rfl
  | cons b bs ih => simp [State.memWriteBytes, ih]
@[simp] theorem State.memWriteBytes_CYCLES (s : State) (a : Nat) (bs : List Byte) :
    (s.memWriteBytes a bs).CYCLES = s.CYCLES := by
  induction bs generalizing s a with
  | nil => rfl
  | cons b bs ih => simp [State.memWriteBytes, ih]
@[simp] theorem State.memWriteBytes_INSTRET (s : State) (a : Nat) (bs : List Byte) :
    (s.memWriteBytes a bs).INSTRET = s.INSTRET := by
  induction bs generalizing s a with
  | nil => rfl
  | cons b bs ih => simp [State.memWriteBytes, ih]
@[simp] theorem State.memWriteBytes_HALTED (s : State) (a : Nat) (bs : List Byte) :
    (s.memWriteBytes a bs).HALTED = s.HALTED := by
  induction bs generalizing s a with
  | nil => rfl
  | cons b bs ih => simp [State.memWriteBytes, ih]
@[simp] theorem State.memWriteBytes_raised (s : State) (a : Nat) (bs : List Byte) :
    (s.memWriteBytes a bs).raised = s.raised := by
  induction bs generalizing s a with
  | nil => rfl
  | cons b bs ih => simp [State.memWriteBytes, ih]

end Sys2Proof.Machine
end

