-- ==== Sys2Proof/Laws/Memory.lean ====
section
/-! SUPPORT. The laws of memory: the canonical form is kept, a read after a write, and equal memories
are equal data. -/

namespace Sys2Proof.Machine

/-! ### Addresses -/

@[simp] theorem wrapAddress_toNat (n : Nat) : (wrapAddress n).toNat = n % 65536 := by
  simp [wrapAddress, Config.memSize]

@[simp] theorem zeroPageAddress_toNat (n : Nat) : (zeroPageAddress n).toNat = n % 256 := by
  simp [zeroPageAddress]; omega

theorem wrapAddress_of_address (a : Address) : wrapAddress a.toNat = a := by
  apply BitVec.eq_of_toNat_eq
  have := a.isLt
  simp; omega

/-! ### The canonical form -/

theorem Memory.wfFrom_cons (lo a : Nat) (v : Byte) (m : Memory) :
    Memory.wfFrom lo ((a, v) :: m) = true ↔
      lo ≤ a ∧ a < Config.memSize ∧ m.wfFrom (a + 1) = true := by
  simp [Memory.wfFrom, and_assoc]

/-- A memory listed from `lo` on is listed from any lower address on. -/
theorem Memory.wfFrom_mono {lo lo' : Nat} (h : lo' ≤ lo) :
    ∀ {m : Memory}, m.wfFrom lo = true → m.wfFrom lo' = true
  | [], _ => rfl
  | (a, v) :: m, hm => by
    rw [Memory.wfFrom_cons] at hm ⊢
    exact ⟨by omega, hm.2⟩

/-- An address below every listed one has no known byte. -/
theorem Memory.get_of_lt {lo a : Nat} (h : a < lo) :
    ∀ {m : Memory}, m.wfFrom lo = true → m.get a = none
  | [], _ => rfl
  | (b, w) :: m, hm => by
    rw [Memory.wfFrom_cons] at hm
    have hne : a ≠ b := by omega
    simp only [Memory.get, hne, if_false]
    exact Memory.get_of_lt (by omega : a < b + 1) hm.2.2

/-- An address outside the address space has no known byte. -/
theorem Memory.get_of_memSize_le {lo a : Nat} (h : Config.memSize ≤ a) :
    ∀ {m : Memory}, m.wfFrom lo = true → m.get a = none
  | [], _ => rfl
  | (b, w) :: m, hm => by
    rw [Memory.wfFrom_cons] at hm
    have hne : a ≠ b := by omega
    simp only [Memory.get, hne, if_false]
    exact Memory.get_of_memSize_le h hm.2.2

theorem Memory.put_wfFrom {lo a : Nat} {v : Byte} (hlo : lo ≤ a) (ha : a < Config.memSize) :
    ∀ {m : Memory}, m.wfFrom lo = true → (m.put a v).wfFrom lo = true := by
  intro m
  induction m generalizing lo with
  | nil => intro _; exact (Memory.wfFrom_cons ..).2 ⟨hlo, ha, rfl⟩
  | cons c m ih =>
    obtain ⟨b, w⟩ := c
    intro hm
    rw [Memory.wfFrom_cons] at hm
    unfold Memory.put
    split
    · exact (Memory.wfFrom_cons ..).2 ⟨hlo, ha, (Memory.wfFrom_cons ..).2 ⟨by omega, hm.2⟩⟩
    · split
      · rename_i _ hab
        exact (Memory.wfFrom_cons ..).2 ⟨hlo, ha, hab ▸ hm.2.2⟩
      · exact (Memory.wfFrom_cons ..).2 ⟨hm.1, hm.2.1, ih (by omega) hm.2.2⟩

/-- A write keeps the canonical form. -/
theorem Memory.put_wf {m : Memory} {a : Nat} {v : Byte} (ha : a < Config.memSize)
    (hm : m.wf = true) : (m.put a v).wf = true :=
  Memory.put_wfFrom (Nat.zero_le a) ha hm

/-! ### Reading after writing -/

/-- The known byte after a write; no form of the list is needed. -/
theorem Memory.get_put (m : Memory) (a b : Nat) (v : Byte) :
    (m.put a v).get b = if b = a then some v else m.get b := by
  induction m with
  | nil => rfl
  | cons c m ih =>
    obtain ⟨x, w⟩ := c
    unfold Memory.put
    split
    · rfl
    · split
      · rename_i _ hax
        subst hax
        by_cases hb : b = a <;> simp [Memory.get, hb]
      · rename_i _ hax
        by_cases hbx : b = x
        · simp [Memory.get, hbx, Ne.symm hax]
        · simp [Memory.get, hbx, ih]

/-- A read after a write: the byte written, and every other byte as before. -/
theorem Memory.read_put (m : Memory) (a b : Nat) (v : Byte) :
    (m.put a v).read b = if b = a then v else m.read b := by
  unfold Memory.read
  rw [Memory.get_put]
  split <;> rfl

/-- With nothing listed every byte is the launch image's (R37). -/
@[simp] theorem Memory.read_nil (a : Nat) : Memory.read [] a = Config.M0 a := rfl

/-! ### Equal memories are equal data -/

theorem Memory.ext_from {lo : Nat} :
    ∀ {m n : Memory}, m.wfFrom lo = true → n.wfFrom lo = true →
      (∀ a, m.get a = n.get a) → m = n := by
  intro m
  induction m generalizing lo with
  | nil =>
    intro n _ _ h
    cases n with
    | nil => rfl
    | cons d n => simpa [Memory.get] using h d.1
  | cons c m ih =>
    obtain ⟨a, v⟩ := c
    intro n hm hn h
    rw [Memory.wfFrom_cons] at hm
    cases n with
    | nil => simpa [Memory.get] using h a
    | cons d n =>
      obtain ⟨b, w⟩ := d
      rw [Memory.wfFrom_cons] at hn
      have hab : a = b := by
        rcases Nat.lt_trichotomy a b with hlt | heq | hgt
        · have hb : Memory.get ((b, w) :: n) a = none :=
            Memory.get_of_lt hlt ((Memory.wfFrom_cons ..).2 ⟨Nat.le_refl b, hn.2⟩)
          simpa [Memory.get] using (h a).trans hb
        · exact heq
        · have ha : Memory.get ((a, v) :: m) b = none :=
            Memory.get_of_lt hgt ((Memory.wfFrom_cons ..).2 ⟨Nat.le_refl a, hm.2⟩)
          simpa [Memory.get] using (h b).symm.trans ha
      subst hab
      have hvw : v = w := by simpa [Memory.get] using h a
      subst hvw
      congr 1
      refine ih hm.2.2 hn.2.2 fun x => ?_
      by_cases hx : x = a
      · subst hx
        rw [Memory.get_of_lt (Nat.lt_succ_self _) hm.2.2,
          Memory.get_of_lt (Nat.lt_succ_self _) hn.2.2]
      · simpa [Memory.get, hx] using h x

/-! ### A whole image -/

theorem Memory.ofImageFrom_wf (f : Nat → Byte) :
    ∀ (n lo : Nat), lo + n ≤ Config.memSize → (Memory.ofImageFrom f lo n).wfFrom lo = true
  | 0, _, _ => rfl
  | n + 1, lo, h =>
    (Memory.wfFrom_cons ..).2
      ⟨Nat.le_refl lo, by omega, Memory.ofImageFrom_wf f n (lo + 1) (by omega)⟩

theorem Memory.get_ofImageFrom (f : Nat → Byte) :
    ∀ (n lo a : Nat), lo ≤ a → a < lo + n → (Memory.ofImageFrom f lo n).get a = some (f a)
  | 0, _, _, _, _ => by omega
  | n + 1, lo, a, hl, hu => by
    rw [Memory.ofImageFrom, Memory.get]
    split
    · rename_i h'; rw [h']
    · exact Memory.get_ofImageFrom f n (lo + 1) a (by omega) (by omega)

/-! ### Memory operations of State -/

/-- Every address a `memRead` selects is inside the address space. -/
theorem wrapAddress_lt (n : Nat) : (wrapAddress n).toNat < Config.memSize := (wrapAddress n).isLt

theorem State.memWrite_wf {s : State} (a v : Nat) (h : s.mem.wf = true) :
    (s.memWrite a v).mem.wf = true :=
  Memory.put_wf (wrapAddress_lt a) h

theorem State.memRead_memWrite (s : State) (a b v : Nat) :
    (s.memWrite a v).memRead b =
      if b % 65536 = a % 65536 then BitVec.ofNat 8 v else s.memRead b := by
  simp [State.memRead, Memory.read_put]

/-- Every byte of the reset state is the launch image's (R37). -/
@[simp] theorem State.reset_memRead (a : Nat) :
    State.reset.memRead a = Config.M0 (a % 65536) := by
  simp [State.memRead, State.reset]

/-- The known bytes of a memory are what a read at an address of the address space gives. -/
theorem State.memRead_of_get {s : State} {a : Nat} {v : Byte} (ha : a < Config.memSize)
    (h : s.mem.get a = some v) : s.memRead a = v := by
  have : a % 65536 = a := Nat.mod_eq_of_lt ha
  simp [State.memRead, Memory.read, this, h]

theorem State.memWriteBytes_wf {s : State} (a : Nat) (bs : List Byte) (h : s.mem.wf = true) :
    (s.memWriteBytes a bs).mem.wf = true := by
  induction bs generalizing s a with
  | nil => exact h
  | cons b bs ih => exact ih (a + 1) (State.memWrite_wf a b.toNat h)

/-- Reading depends on the memory alone. -/
theorem State.memRead_congr {s t : State} (h : s.mem = t.mem) (a : Nat) :
    s.memRead a = t.memRead a := by
  simp [State.memRead, h]

end Sys2Proof.Machine
end

