-- ==== Sys2Proof/Laws/Exec.lean ====
section
/-! SUPPORT. The operand of each addressing mode as a number's byte, and what `exec` answers: once for
the eight ADC instructions, once for the eight AND instructions, once for the jump. -/

namespace Sys2Proof.Machine

/-! ### The addressing modes (R104 to R112) -/

theorem operandAt_eaZeropage (d8 : Byte) (s : State) :
    operandAt (eaZeropage d8) s = s.memRead d8.toNat := by
  have := d8.isLt
  simp [operandAt, eaZeropage, Nat.mod_eq_of_lt this]

theorem operandAt_eaZeropageX (d8 : Byte) (s : State) :
    operandAt (eaZeropageX d8 s) s = s.memRead ((d8.toNat + s.X.toNat) % 256) := by
  simp [operandAt, eaZeropageX]

theorem operandAt_eaAbsolute (abs16 : Address) (s : State) :
    operandAt (eaAbsolute abs16) s = s.memRead abs16.toNat := by
  simp [operandAt, eaAbsolute, wrapAddress_of_address]

theorem operandAt_eaAbsoluteX (abs16 : Address) (s : State) :
    operandAt (eaAbsoluteX abs16 s) s = s.memRead ((abs16.toNat + s.X.toNat) % 65536) := by
  simp [operandAt, eaAbsoluteX]

theorem operandAt_eaAbsoluteY (abs16 : Address) (s : State) :
    operandAt (eaAbsoluteY abs16 s) s = s.memRead ((abs16.toNat + s.Y.toNat) % 65536) := by
  simp [operandAt, eaAbsoluteY]

theorem operandAt_eaIndirectX (d8 : Byte) (s : State) :
    operandAt (eaIndirectX d8 s) s = s.memRead ((d8.toNat + s.X.toNat) % 256) := by
  simp [operandAt, eaIndirectX]

theorem operandAt_eaIndirectY (za : Byte) (s : State) :
    operandAt (eaIndirectY za s) s =
      s.memRead (((s.memRead ((za.toNat + 1) % 256)).toNat * 256 + (s.memRead za.toNat).toNat
        + s.Y.toNat) % 65536) := by
  have := za.isLt
  simp [operandAt, eaIndirectY, eaIndirectYWith, pointerAt, assembleWord_toNat, pointerHighAddress,
    Config.ptrHiWrap, Nat.mod_eq_of_lt this]

/-! ### What `exec` answers -/

/-- The operand byte of an instruction in a state (R103); a jump has none, and this value for it is
used by no rule. -/
def operandOf (i : Instr) (s : State) : Byte :=
  match i with
  | .adcImm d8 => operandImmediate d8
  | .adcZp d8 => operandAt (eaZeropage d8) s
  | .adcZpX d8 => operandAt (eaZeropageX d8 s) s
  | .adcAbs abs16 => operandAt (eaAbsolute abs16) s
  | .adcAbsX abs16 => operandAt (eaAbsoluteX abs16 s) s
  | .adcAbsY abs16 => operandAt (eaAbsoluteY abs16 s) s
  | .adcIndX d8 => operandAt (eaIndirectX d8 s) s
  | .adcIndY d8 => operandAt (eaIndirectY d8 s) s
  | .andImm d8 => operandImmediate d8
  | .andZp d8 => operandAt (eaZeropage d8) s
  | .andZpX d8 => operandAt (eaZeropageX d8 s) s
  | .andAbs abs16 => operandAt (eaAbsolute abs16) s
  | .andAbsX abs16 => operandAt (eaAbsoluteX abs16 s) s
  | .andAbsY abs16 => operandAt (eaAbsoluteY abs16 s) s
  | .andIndX d8 => operandAt (eaIndirectX d8 s) s
  | .andIndY d8 => operandAt (eaIndirectY d8 s) s
  | .jmpAbs _ => 0

/-- Every ADC instruction: its operand added, then the common tail (R101, R130, R115). -/
theorem exec_adc {i : Instr} (h : i.operation = .adc) (s : State) :
    exec i s = .next ((s.adcCore (operandOf i s)).advance i.row) := by
  cases i <;> first | rfl | cases h

/-- Every AND instruction: its operand masked in, then the common tail (R101, R150, R115). -/
theorem exec_and {i : Instr} (h : i.operation = .and) (s : State) :
    exec i s = .next ((s.andCore (operandOf i s)).advance i.row) := by
  cases i <;> first | rfl | cases h

/-- The jump (R170). -/
theorem exec_jmp (abs16 : Address) (s : State) :
    exec (.jmpAbs abs16) s = .next (s.writePC abs16.toNat) := rfl

/-- Everything an instruction can do: what `exec` answers, case by case of the operation. -/
theorem exec_cases {i : Instr} {s t : State} (h : exec i s = .next t) :
    (i.operation = .adc ∧ t = (s.adcCore (operandOf i s)).advance i.row) ∨
    (i.operation = .and ∧ t = (s.andCore (operandOf i s)).advance i.row) ∨
    (∃ abs16, i = .jmpAbs abs16 ∧ t = s.writePC abs16.toNat) := by
  cases hop : i.operation with
  | adc =>
    rw [exec_adc hop] at h
    exact .inl ⟨rfl, by injection h with h; exact h.symm⟩
  | and =>
    rw [exec_and hop] at h
    exact .inr (.inl ⟨rfl, by injection h with h; exact h.symm⟩)
  | jmp =>
    cases i with
    | jmpAbs abs16 =>
      rw [exec_jmp] at h
      exact .inr (.inr ⟨abs16, rfl, by injection h with h; exact h.symm⟩)
    | _ => cases hop

/-- PC after the common tail of an ADC or AND (R115). -/
theorem advance_PC_of_data {i : Instr} (h : i.operation ≠ .jmp) (s : State) :
    (s.advance i.row).PC = wrapAddress (s.PC.toNat + i.row.length) := by
  cases i <;> first | rfl | exact absurd rfl h

end Sys2Proof.Machine
end

