-- ==== Sys2Proof/Laws/Step.lean ====
section
/-! SUPPORT. Fetching, and everything a step can do. -/

namespace Sys2Proof.Machine

@[simp] theorem State.readBytes_length (s : State) (addr n : Nat) :
    (s.readBytes addr n).length = n := by
  induction n generalizing addr with
  | zero => rfl
  | succ n ih => simp [State.readBytes, ih]

/-- Decoding with a definition of the table and all its operand bytes at hand gives an instruction
whose row is that definition. -/
theorem decodeWith_ok {d : InstrDef} (hd : d ∈ definitions) {rest : List Byte}
    (hl : rest.length = d.mode.operandBytes) :
    ∃ i, decodeWith d rest = .ok (i, []) ∧ i.row = d := by
  obtain ⟨i, hi, hrow, -⟩ := instrOf_row hd (rest.headD 0) (rest.tail.headD 0)
  refine ⟨i, ?_, hrow⟩
  unfold decodeWith
  rw [if_neg (by omega), hi, List.drop_of_length_le (Nat.le_of_eq hl)]

/-- The fetch finds no instruction exactly when the opcode byte has no definition (R181). -/
theorem State.fetch_undefined {s : State} (h : itable (s.memRead s.PC.toNat) = none) :
    s.fetch = .error (s.memRead s.PC.toNat) := by
  simp [State.fetch, State.fetchBytes, h, decode]

/-- With a definition for the opcode byte the fetch gives an instruction of that definition (R100). -/
theorem State.fetch_defined {s : State} {d : InstrDef}
    (h : itable (s.memRead s.PC.toNat) = some d) :
    ∃ i, s.fetch = .ok i ∧ i.row = d := by
  have hd := (InstrTable.lookup_some h).1
  obtain ⟨i, hi, hrow⟩ := decodeWith_ok hd
    (State.readBytes_length s (s.PC.toNat + 1) d.mode.operandBytes)
  exact ⟨i, by simp [State.fetch, State.fetchBytes, h, decode, hi], hrow⟩

/-- Everything a step can do, guards included. -/
theorem step_cases {s t : State} (h : step s = .next t) :
    (s.HALTED = true ∧ t = s) ∨
    (s.HALTED = false ∧ itable (s.memRead s.PC.toNat) = none ∧
      t = s.takeDecodeError (s.memRead s.PC.toNat)) ∨
    (s.HALTED = false ∧ ∃ i u, s.fetch = .ok i ∧ itable (s.memRead s.PC.toNat) = some i.row ∧
      exec i s = .next u ∧ t = u.retire i.row) := by
  cases hh : s.HALTED with
  | true =>
    simp only [step, stepSequence, hh, if_true] at h
    exact .inl ⟨rfl, by injection h with h; exact h.symm⟩
  | false =>
    simp only [step, stepSequence, hh, Bool.false_eq_true, if_false] at h
    cases ht : itable (s.memRead s.PC.toNat) with
    | none =>
      rw [State.fetch_undefined ht] at h
      exact .inr (.inl ⟨rfl, rfl, by injection h with h; exact h.symm⟩)
    | some d =>
      obtain ⟨i, hi, hrow⟩ := State.fetch_defined ht
      rw [hi] at h
      refine .inr (.inr ⟨rfl, i, ?_⟩)
      simp only [execAndCount] at h
      cases he : exec i s with
      | next u =>
        rw [he] at h
        exact ⟨u, hi, by rw [hrow], rfl, by injection h with h; exact h.symm⟩
      | fault f => rw [he] at h; cases h
      | refused r => rw [he] at h; cases h

theorem step_of_halted {s : State} (h : s.HALTED = true) : step s = .next s := by
  simp [step, stepSequence, h]

theorem step_of_undefined {s : State} (h : s.HALTED = false)
    (ht : itable (s.memRead s.PC.toNat) = none) :
    step s = .next (s.takeDecodeError (s.memRead s.PC.toNat)) := by
  simp [step, stepSequence, h, State.fetch_undefined ht]

theorem step_of_fetch {s u : State} {i : Instr} (h : s.HALTED = false) (hi : s.fetch = .ok i)
    (hu : exec i s = .next u) : step s = .next (u.retire i.row) := by
  simp [step, stepSequence, h, hi, execAndCount, hu]

end Sys2Proof.Machine
end

