-- ==== Sys2Proof/Tests/Slice0.lean ====
section
/-! SUPPORT. Tests: the encodings written out from `30_encoding.md` R80, the vectors of
`95_test_vectors.md` and the examples of the instruction rules, and a witness for every statement
that has hypotheses. Expected values come from the spec's text only. -/

namespace Sys2Proof.Tests

open Sys2Proof.Machine Sys2Proof.Claims

/-! ### Helpers -/

/-- A state with code from `pc` on and some data bytes; every register 0. -/
def machineAt (pc : Nat) (code : List Byte) (data : List (Nat × Byte)) : State :=
  let s := (State.reset.writePC pc).memWriteBytes pc code
  data.foldl (fun u c => u.memWrite c.1 c.2.toNat) s

/-- The next state of an outcome, if it is one. -/
def nextOf : Host.Outcome State Fault Refusal → Option State
  | .next t => some t
  | _ => none

/-- A, P, PC, CYCLES after one step. -/
def stepResult (s : State) : Option (Byte × Byte × Address × Nat) :=
  (nextOf (step s)).map fun t => (t.A, t.P, t.PC, t.CYCLES)

/-! ### Well-formedness: each check refuses an ill-formed term -/

theorem test_table_wf : definitions.wf = true := by decide

/-- 95_test_vectors.md T2: a second definition with opcode 69 (R76). -/
theorem test_wf_refuses_repeated_opcode :
    InstrTable.wf (definitions ++ [⟨0x69, "AND", .immediate, 2, 2, .and⟩]) = false := by decide

/-- R72: an immediate definition is two bytes long. -/
theorem test_wf_refuses_wrong_length :
    InstrTable.wf [⟨0x69, "ADC", .immediate, 2, 3, .adc⟩] = false := by decide

/-- R101: JMP exists in absolute only. -/
theorem test_wf_refuses_unlisted_pair :
    InstrTable.wf [⟨0x4C, "JMP", .zeropage, 3, 2, .jmp⟩] = false := by decide

/-- 95_test_vectors.md T3: with the empty table no instruction is defined. -/
theorem test_wf_refuses_undefined_instruction : (Instr.adcImm 0x0A).wf [] = false := by decide

theorem test_instr_wf : (Instr.adcImm 0x0A).wf definitions = true := by decide

/-- 95_test_vectors.md T1, T2, T3. -/
theorem test_table_T1 : (InstrTable.build definitions) = some definitions ∧ definitions.length = 17 := by
  decide
theorem test_table_T2 :
    InstrTable.build (definitions ++ [⟨0x69, "AND", .immediate, 2, 2, .and⟩]) = none := by decide
theorem test_table_T3 : InstrTable.build [] = some [] := by decide

/-! ### Decoding: every constructor's word, written out bit by bit from R80 and R86 -/

theorem test_decode_adcImm : decode [0b01101001, 0x5A, 0xC3] = .ok (.adcImm 0x5A, [0xC3]) := by rfl
theorem test_decode_adcZp : decode [0b01100101, 0x5A, 0xC3] = .ok (.adcZp 0x5A, [0xC3]) := by rfl
theorem test_decode_adcZpX : decode [0b01110101, 0x5A, 0xC3] = .ok (.adcZpX 0x5A, [0xC3]) := by rfl
theorem test_decode_adcAbs : decode [0b01101101, 0x34, 0x12, 0xC3] = .ok (.adcAbs 0x1234, [0xC3]) := by rfl
theorem test_decode_adcAbsX : decode [0b01111101, 0x34, 0x12, 0xC3] = .ok (.adcAbsX 0x1234, [0xC3]) := by rfl
theorem test_decode_adcAbsY : decode [0b01111001, 0x34, 0x12, 0xC3] = .ok (.adcAbsY 0x1234, [0xC3]) := by rfl
theorem test_decode_adcIndX : decode [0b01100001, 0x5A, 0xC3] = .ok (.adcIndX 0x5A, [0xC3]) := by rfl
theorem test_decode_adcIndY : decode [0b01110001, 0x5A, 0xC3] = .ok (.adcIndY 0x5A, [0xC3]) := by rfl
theorem test_decode_andImm : decode [0b00101001, 0x5A, 0xC3] = .ok (.andImm 0x5A, [0xC3]) := by rfl
theorem test_decode_andZp : decode [0b00100101, 0x5A, 0xC3] = .ok (.andZp 0x5A, [0xC3]) := by rfl
theorem test_decode_andZpX : decode [0b00110101, 0x5A, 0xC3] = .ok (.andZpX 0x5A, [0xC3]) := by rfl
theorem test_decode_andAbs : decode [0b00101101, 0x34, 0x12, 0xC3] = .ok (.andAbs 0x1234, [0xC3]) := by rfl
theorem test_decode_andAbsX : decode [0b00111101, 0x34, 0x12, 0xC3] = .ok (.andAbsX 0x1234, [0xC3]) := by rfl
theorem test_decode_andAbsY : decode [0b00111001, 0x34, 0x12, 0xC3] = .ok (.andAbsY 0x1234, [0xC3]) := by rfl
theorem test_decode_andIndX : decode [0b00100001, 0x5A, 0xC3] = .ok (.andIndX 0x5A, [0xC3]) := by rfl
theorem test_decode_andIndY : decode [0b00110001, 0x5A, 0xC3] = .ok (.andIndY 0x5A, [0xC3]) := by rfl
theorem test_decode_jmpAbs : decode [0b01001100, 0x34, 0x12, 0xC3] = .ok (.jmpAbs 0x1234, [0xC3]) := by rfl

/-- R84: 0x00 and 0xEA are illegal here; R199: so is the break byte. -/
theorem test_decode_undefined :
    decode [0x00, 0x01, 0x02] = .error (.undefinedOpcode 0x00) ∧
    decode [0xEA] = .error (.undefinedOpcode 0xEA) := ⟨rfl, rfl⟩
theorem test_decode_truncated : decode [0x6D, 0x34] = .error (.truncated 0x6D) ∧
    decode [0x69] = .error (.truncated 0x69) ∧ decode [] = .error .noBytes := ⟨rfl, rfl, rfl⟩

/-- The table's word numbering (opcode_table.json's note): opcode | byte1 << 8 | byte2 << 16. -/
theorem test_decodeTableWord : decodeTableWord 16 0x0A69 = some (.adcImm 0x0A) ∧
    decodeTableWord 24 0x12346D = some (.adcAbs 0x1234) ∧ decodeTableWord 8 0x4C = some (.jmpAbs 0) ∧
    decodeTableWord 8 0xEA = none := ⟨rfl, rfl, rfl, rfl⟩

/-- A word placed for the fetch is what the next step runs, also from the top of memory (R41). -/
theorem test_withFetchWord :
    stepResult (State.reset.withFetchWord 16 0x0A69) = some (0x0A, 0x00, 0x0002, 2) ∧
    stepResult ((State.reset.writePC 0xFFFF).withFetchWord 24 0xABCD4C) =
      some (0x00, 0x00, 0xABCD, 3) := by decide

/-! ### ADC and AND cores: vectors A1 to A20, B1 to B9 (95_test_vectors.md 2.1, 2.2) -/

/-- A and P after ADC of `m` with accumulator `a` and status `p`. -/
def adcVector (a m p : Byte) : Byte × Byte :=
  let t := State.adcCore { State.reset with A := a, P := p } m
  (t.A, t.P)

/-- A and P after AND of `m` with accumulator `a` and status `p`. -/
def andVector (a m p : Byte) : Byte × Byte :=
  let t := State.andCore { State.reset with A := a, P := p } m
  (t.A, t.P)

/-- A1 to A9. -/
theorem test_adc_A1_A9 :
    adcVector 0x78 0x0A 0x00 = (0x82, 0xC0) ∧
    adcVector 0xFF 0x00 0x01 = (0x00, 0x03) ∧
    adcVector 0x80 0x80 0x00 = (0x00, 0x43) ∧
    adcVector 0x7F 0x7F 0x01 = (0xFF, 0xC0) ∧
    adcVector 0x80 0xFF 0x00 = (0x7F, 0x41) ∧
    adcVector 0x80 0x7F 0x01 = (0x00, 0x03) ∧
    adcVector 0x00 0x00 0x00 = (0x00, 0x02) ∧
    adcVector 0x50 0x50 0x00 = (0xA0, 0xC0) ∧
    adcVector 0xD0 0x90 0x00 = (0x60, 0x41) := by decide

/-- A10 to A18. -/
theorem test_adc_A10_A18 :
    adcVector 0x50 0xD0 0x00 = (0x20, 0x01) ∧
    adcVector 0x7F 0x00 0x01 = (0x80, 0xC0) ∧
    adcVector 0xFF 0xFF 0x01 = (0xFF, 0x81) ∧
    adcVector 0x01 0xFF 0x00 = (0x00, 0x03) ∧
    adcVector 0x00 0xFF 0x01 = (0x00, 0x03) ∧
    adcVector 0x3F 0x40 0x01 = (0x80, 0xC0) ∧
    adcVector 0xFF 0x01 0x00 = (0x00, 0x03) ∧
    adcVector 0x00 0x00 0x01 = (0x01, 0x00) ∧
    adcVector 0x12 0x34 0x00 = (0x46, 0x00) := by decide

/-- A19: unnamed bits kept; A20: binary with D set (R26). -/
theorem test_adc_A19_A20 :
    adcVector 0x01 0x01 0xFF = (0x03, 0x3C) ∧
    adcVector 0x09 0x09 0x08 = (0x12, 0x08) := by decide

/-- B1 to B9. -/
theorem test_and_B1_B9 :
    andVector 0xFF 0x0F 0x00 = (0x0F, 0x00) ∧
    andVector 0xF0 0x0F 0x00 = (0x00, 0x02) ∧
    andVector 0xFF 0x80 0x00 = (0x80, 0x80) ∧
    andVector 0xAA 0x55 0x41 = (0x00, 0x43) ∧
    andVector 0xAA 0xFF 0x43 = (0xAA, 0xC1) ∧
    andVector 0x00 0xFF 0x80 = (0x00, 0x02) ∧
    andVector 0x82 0x0F 0xC0 = (0x02, 0x40) ∧
    andVector 0xFF 0xFF 0x02 = (0xFF, 0x80) ∧
    andVector 0x7F 0x80 0xFF = (0x00, 0x7F) := by decide

/-! ### One step of each instruction: vectors AM, W, J and the examples of R131 to R158 -/

/-- S1, A1: 120 + 10. -/
theorem test_adcImm_source_example : stepResult { machineAt 0x0000 [0x69, 0x0A] [] with A := 0x78 } =
    some (0x82, 0xC0, 0x0002, 2) := by decide
/-- AM2: at the top of memory. -/
theorem test_adcImm_wraps : stepResult (machineAt 0xFFFF [0x69, 0x0A] []) =
    some (0x0A, 0x00, 0x0001, 2) := by decide
/-- R132's example: the carry is consumed. -/
theorem test_adcZp : stepResult { machineAt 0x0400 [0x65, 0x10] [(0x0010, 0x34)] with P := 0x01 } =
    some (0x35, 0x00, 0x0402, 3) := by decide
/-- AM15: an instruction reads its own opcode byte. -/
theorem test_adcZp_own_byte : stepResult { machineAt 0x0010 [0x65, 0x10] [] with A := 0x01 } =
    some (0x66, 0x00, 0x0012, 3) := by decide
/-- R133's example: V set. -/
theorem test_adcZpX : stepResult { machineAt 0x0402 [0x75, 0xFE] [(0x0002, 0x7F)] with A := 0x35, X := 0x04 } =
    some (0xB4, 0xC0, 0x0404, 4) := by decide
/-- AM5: decoy at 0102. -/
theorem test_adcZpX_wraps : stepResult { machineAt 0x0300 [0x75, 0xFE] [(0x0002, 0x7F), (0x0102, 0x11)] with X := 0x04 } =
    some (0x7F, 0x00, 0x0302, 4) := by decide
/-- AM6: little-endian. -/
theorem test_adcAbs : stepResult (machineAt 0x0300 [0x6D, 0x34, 0x12] [(0x1234, 0x05), (0x3412, 0x99)]) =
    some (0x05, 0x00, 0x0303, 4) := by decide
/-- AM14: operand bytes straddle the top. -/
theorem test_adcAbs_straddles : stepResult (machineAt 0xFFFE [0x6D, 0x10, 0x00] [(0x0010, 0x05)]) =
    some (0x05, 0x00, 0x0001, 4) := by decide
/-- R135's example: wrap, C, Z and V. -/
theorem test_adcAbsX : stepResult { machineAt 0x0300 [0x7D, 0xF0, 0xFF] [(0x0010, 0x80)] with A := 0x80, X := 0x20 } =
    some (0x00, 0x43, 0x0303, 4) := by decide
/-- AM7: carry into the high byte; decoy at 1200. -/
theorem test_adcAbsX_page : stepResult { machineAt 0x0300 [0x7D, 0xFF, 0x12] [(0x1300, 0x44), (0x1200, 0x55)] with X := 0x01 } =
    some (0x44, 0x00, 0x0303, 4) := by decide
/-- R136's example. -/
theorem test_adcAbsY : stepResult { machineAt 0x0300 [0x79, 0xFF, 0x12] [(0x1300, 0x7F)] with A := 0x7F, P := 0x01, Y := 0x01 } =
    some (0xFF, 0xC0, 0x0303, 4) := by decide
/-- AM8. -/
theorem test_adcAbsY_wraps : stepResult { machineAt 0x0300 [0x79, 0xF0, 0xFF] [(0x0010, 0x66)] with Y := 0x20 } =
    some (0x66, 0x00, 0x0303, 4) := by decide
/-- AM9: decoy at 3080. -/
theorem test_adcIndX_one_level : stepResult { machineAt 0x0300 [0x61, 0x10] [(0x0014, 0x80), (0x0015, 0x30), (0x3080, 0x99)] with X := 0x04 } =
    some (0x80, 0x80, 0x0302, 6) := by decide
/-- AM10: decoys at 0101 and 2042. -/
theorem test_adcIndX_wraps : stepResult { machineAt 0x0300 [0x61, 0xFF] [(0x0001, 0x42), (0x0002, 0x20), (0x0101, 0x77), (0x2042, 0x99)] with X := 0x02 } =
    some (0x42, 0x00, 0x0302, 6) := by decide
/-- R138's example: V stays clear. -/
theorem test_adcIndY : stepResult { machineAt 0x0404 [0x71, 0x10] [(0x0010, 0x34), (0x0011, 0x12), (0x1244, 0x0F)] with A := 0xB4, Y := 0x10 } =
    some (0xC3, 0x80, 0x0406, 5) := by decide
/-- AM12: the high byte comes from 0000. -/
theorem test_adcIndY_pointer_at_FF : stepResult { machineAt 0x0300 [0x71, 0xFF] [(0x00FF, 0x00), (0x0000, 0x20), (0x0100, 0x40), (0x2005, 0xAA), (0x4005, 0xBB)] with Y := 0x05 } =
    some (0xAA, 0x80, 0x0302, 5) := by decide
/-- R151's example: V kept. -/
theorem test_andImm : stepResult { machineAt 0x0000 [0x29, 0x0F] [] with A := 0x82, P := 0xC0 } =
    some (0x02, 0x40, 0x0002, 2) := by decide
/-- W1. -/
theorem test_andImm_wraps : stepResult { machineAt 0xFFFF [0x29, 0xFF] [] with A := 0x5A } =
    some (0x5A, 0x00, 0x0001, 2) := by decide
/-- R152's example: C kept, Z set. -/
theorem test_andZp : stepResult { machineAt 0x0300 [0x25, 0x20] [(0x0020, 0x0F)] with A := 0xF0, P := 0x01 } =
    some (0x00, 0x03, 0x0302, 3) := by decide
/-- R153's example: 80 + FF wraps to 7F. -/
theorem test_andZpX : stepResult { machineAt 0x0300 [0x35, 0x80] [(0x007F, 0xAA)] with A := 0xFF, X := 0xFF } =
    some (0xAA, 0x80, 0x0302, 4) := by decide
/-- R154's example. -/
theorem test_andAbs : stepResult { machineAt 0x0300 [0x2D, 0x00, 0x30] [(0x3000, 0x66)] with A := 0x3C, P := 0x41 } =
    some (0x24, 0x41, 0x0303, 4) := by decide
/-- W3. -/
theorem test_andAbs_wraps_pc : stepResult { machineAt 0xFFFD [0x2D, 0x00, 0x30] [(0x3000, 0xFF)] with A := 0x5A } =
    some (0x5A, 0x00, 0x0000, 4) := by decide
/-- R155's example: FFFF + 2 wraps to 0001. -/
theorem test_andAbsX : stepResult { machineAt 0x0300 [0x3D, 0xFF, 0xFF] [(0x0001, 0x80)] with A := 0x81, X := 0x02 } =
    some (0x80, 0x80, 0x0303, 4) := by decide
/-- R156's example. -/
theorem test_andAbsY : stepResult { machineAt 0x0406 [0x39, 0x00, 0x20] [(0x2010, 0xF0)] with A := 0xC3, P := 0x80, Y := 0x10 } =
    some (0xC0, 0x80, 0x0409, 4) := by decide
/-- R157's example: one level. -/
theorem test_andIndX : stepResult { machineAt 0x0409 [0x21, 0x10] [(0x0014, 0x80), (0x0015, 0x30)] with A := 0xC0, P := 0x80, X := 0x04 } =
    some (0x80, 0x80, 0x040B, 6) := by decide
/-- R158's example: FFF8 + 10 wraps to 0008. -/
theorem test_andIndY : stepResult { machineAt 0x0300 [0x31, 0x40] [(0x0040, 0xF8), (0x0041, 0xFF), (0x0008, 0x81)] with A := 0x7E, Y := 0x10 } =
    some (0x00, 0x02, 0x0302, 5) := by decide
/-- J1: no flag changes. -/
theorem test_jmpAbs : stepResult { machineAt 0x0004 [0x4C, 0x00, 0x02] [] with A := 0x12, X := 0x03, Y := 0x04, S := 0x05, P := 0xFF } =
    some (0x12, 0xFF, 0x0200, 3) := by decide
/-- J4: both operand bytes from the bottom of memory. -/
theorem test_jmpAbs_wraps : stepResult (machineAt 0xFFFF [0x4C, 0xCD, 0xAB] []) =
    some (0x00, 0x00, 0xABCD, 3) := by decide

/-- AM12L: the pointer at FF read under the other value of PTR_HI_WRAP. -/
theorem test_pointer_linear :
    let s := { machineAt 0x0300 [0x71, 0xFF] [(0x00FF, 0x00), (0x0000, 0x20), (0x0100, 0x40), (0x2005, 0xAA), (0x4005, 0xBB)] with Y := 0x05 }
    operandAt (eaIndirectYWith .linear 0xFF s) s = 0xBB ∧
      operandAt (eaIndirectYWith .zp 0xFF s) s = 0xAA := by decide

/-! ### Decode errors: F1, F1b, F2 -/

/-- The state before F1. -/
def beforeF1 : State :=
  { machineAt 0x0200 [0x00] [] with
    A := 0x11, X := 0x22, Y := 0x33, S := 0x44, P := 0xC3, CYCLES := 7, INSTRET := 3 }

/-- F1: HALTED and the record, and nothing else. -/
theorem test_decode_error_F1 : nextOf (step beforeF1) =
    some { beforeF1 with HALTED := true, raised := some (.decodeError 0x00 0x0200) } := by decide

/-- F1b: the next step request is a no-op, and reads nothing. -/
theorem test_halted_F1b :
    let s := { beforeF1 with HALTED := true, raised := some (Fault.decodeError 0x00 0x0200) }
    nextOf (step s) = some s ∧ stepReads s = [] := by decide

/-- F2: 0xEA at address 0. -/
theorem test_decode_error_F2 : (nextOf (step (machineAt 0 [0xEA] []))).map (fun t => t.raised) =
    some (some (.decodeError 0xEA 0x0000)) := by decide

/-! ### Reads of a step: the column "reads" of AM11, AM14, F1 -/

theorem test_reads : stepReads { machineAt 0x0300 [0x71, 0x10] [(0x0010, 0x34), (0x0011, 0x12)] with Y := 0x10 } =
      [0x0300, 0x0301, 0x0010, 0x0011, 0x1244] ∧
    stepReads (machineAt 0xFFFE [0x6D, 0x10, 0x00] []) = [0xFFFE, 0xFFFF, 0x0000, 0x0010] ∧
    stepReads beforeF1 = [0x0200] := by decide

/-! ### Memory, host and Clock -/

/-- A write lists the byte, whatever its value; entries stay in order. -/
theorem test_memory_canonical :
    (Memory.put [(3, 1), (9, 2)] 5 7) = [(3, 1), (5, 7), (9, 2)] ∧
    (Memory.put [(3, 1), (9, 2)] 3 0) = [(3, 0), (9, 2)] ∧
    Memory.wf [(3, 1), (9, 2)] = true ∧ Memory.wf [(9, 1), (3, 2)] = false ∧
    Memory.wf [(3, 1), (3, 2)] = false ∧ Memory.wf [(65536, 1)] = false := by decide

/-- R37: a byte the host did not write is the launch image's, here AND's operand; one it wrote is not. -/
theorem test_unwritten_byte :
    (nextOf (step { machineAt 0x0300 [0x25, 0x20] [] with A := 0xFF })).map (fun t => t.A) =
      some (0xFF &&& Config.M0 0x20) ∧
    (hostAct (.writeByte 0x20 0) State.reset).memRead 0x20 = 0 := ⟨by rfl, by decide⟩

/-- P5, step 3: the host's write over the operand byte is what the next step adds. -/
theorem test_host_write_seen :
    stepResult (hostAct (.writeByte 0x0601 0x10) { machineAt 0x0600 [0x69, 0x01] [] with A := 0x01 }) =
      some (0x11, 0x00, 0x0602, 2) := by decide

/-- R12, R16: host writes are stored modulo 256 and modulo 65536. -/
theorem test_host_writes_wrap : (hostAct (.writeReg .X 0x1FF) State.reset).X = 0xFF ∧
    (hostAct (.writePC 0x10002) State.reset).PC = 0x0002 := by decide

/-- A clock of the source's example S2. -/
def sourceClock : Clock := ⟨1000000, 60, false, false, false, 0, 0⟩

/-- S2: 16667 step requests a frame, 16 ms. -/
theorem test_clock_S2 : sourceClock.cyclesPerFrame = 16667 ∧ sourceClock.frameIntervalMs = 16 := by
  decide

/-- R229, R230, R231: the guard, stop when not running, stop with the timer handle missing. -/
theorem test_clock_guard_and_stop :
    Clock.beginFrame { sourceClock with busy := true } = none ∧
    sourceClock.stop = some sourceClock ∧ Clock.stop { sourceClock with running := true } = none := by
  decide

/-! ### Witnesses: a concrete state and operands that meet the hypotheses of each statement -/

theorem witness_AdcImmediateResult : ReadyAt (machineAt 0xFFFF [0b01101001, 0xFF] []) [0b01101001, 0xFF] :=
  ⟨by decide, by decide⟩
theorem witness_AdcZeroPageResult : ReadyAt (machineAt 0xFFFF [0b01100101, 0xFF] []) [0b01100101, 0xFF] :=
  ⟨by decide, by decide⟩
theorem witness_AdcZeroPageXResult : ReadyAt (machineAt 0xFFFF [0b01110101, 0xFF] []) [0b01110101, 0xFF] :=
  ⟨by decide, by decide⟩
theorem witness_AdcAbsoluteResult :
    (0xFF10 : Address).toNat = (0xFF : Byte).toNat * 256 + (0x10 : Byte).toNat ∧
      ReadyAt (machineAt 0xFFFF [0b01101101, 0x10, 0xFF] []) [0b01101101, 0x10, 0xFF] :=
  ⟨by decide, by decide, by decide⟩
theorem witness_AdcAbsoluteXResult :
    (0xFF10 : Address).toNat = (0xFF : Byte).toNat * 256 + (0x10 : Byte).toNat ∧
      ReadyAt (machineAt 0xFFFF [0b01111101, 0x10, 0xFF] []) [0b01111101, 0x10, 0xFF] :=
  ⟨by decide, by decide, by decide⟩
theorem witness_AdcAbsoluteYResult :
    (0xFF10 : Address).toNat = (0xFF : Byte).toNat * 256 + (0x10 : Byte).toNat ∧
      ReadyAt (machineAt 0xFFFF [0b01111001, 0x10, 0xFF] []) [0b01111001, 0x10, 0xFF] :=
  ⟨by decide, by decide, by decide⟩
theorem witness_AdcIndirectXResult : ReadyAt (machineAt 0xFFFF [0b01100001, 0xFF] []) [0b01100001, 0xFF] :=
  ⟨by decide, by decide⟩
theorem witness_AdcIndirectYResult : ReadyAt (machineAt 0xFFFF [0b01110001, 0xFF] []) [0b01110001, 0xFF] :=
  ⟨by decide, by decide⟩
theorem witness_AndImmediateResult : ReadyAt (machineAt 0xFFFF [0b00101001, 0xFF] []) [0b00101001, 0xFF] :=
  ⟨by decide, by decide⟩
theorem witness_AndZeroPageResult : ReadyAt (machineAt 0xFFFF [0b00100101, 0xFF] []) [0b00100101, 0xFF] :=
  ⟨by decide, by decide⟩
theorem witness_AndZeroPageXResult : ReadyAt (machineAt 0xFFFF [0b00110101, 0xFF] []) [0b00110101, 0xFF] :=
  ⟨by decide, by decide⟩
theorem witness_AndAbsoluteResult :
    (0xFF10 : Address).toNat = (0xFF : Byte).toNat * 256 + (0x10 : Byte).toNat ∧
      ReadyAt (machineAt 0xFFFF [0b00101101, 0x10, 0xFF] []) [0b00101101, 0x10, 0xFF] :=
  ⟨by decide, by decide, by decide⟩
theorem witness_AndAbsoluteXResult :
    (0xFF10 : Address).toNat = (0xFF : Byte).toNat * 256 + (0x10 : Byte).toNat ∧
      ReadyAt (machineAt 0xFFFF [0b00111101, 0x10, 0xFF] []) [0b00111101, 0x10, 0xFF] :=
  ⟨by decide, by decide, by decide⟩
theorem witness_AndAbsoluteYResult :
    (0xFF10 : Address).toNat = (0xFF : Byte).toNat * 256 + (0x10 : Byte).toNat ∧
      ReadyAt (machineAt 0xFFFF [0b00111001, 0x10, 0xFF] []) [0b00111001, 0x10, 0xFF] :=
  ⟨by decide, by decide, by decide⟩
theorem witness_AndIndirectXResult : ReadyAt (machineAt 0xFFFF [0b00100001, 0xFF] []) [0b00100001, 0xFF] :=
  ⟨by decide, by decide⟩
theorem witness_AndIndirectYResult : ReadyAt (machineAt 0xFFFF [0b00110001, 0xFF] []) [0b00110001, 0xFF] :=
  ⟨by decide, by decide⟩
theorem witness_JmpAbsoluteResult :
    (0xFF10 : Address).toNat = (0xFF : Byte).toNat * 256 + (0x10 : Byte).toNat ∧
      ReadyAt (machineAt 0xFFFF [0b01001100, 0x10, 0xFF] []) [0b01001100, 0x10, 0xFF] :=
  ⟨by decide, by decide, by decide⟩

/-- The halted state after F1, and a state about to run ADC #$0A. -/
def haltedState : State :=
  { beforeF1 with HALTED := true, raised := some (.decodeError 0x00 0x0200) }
def addState : State := { machineAt 0x0600 [0x69, 0x0A] [] with A := 0x78 }

/-- The hypotheses of each of the three clauses. -/
theorem witness_StepRunsTheInstructionAtPC : haltedState.HALTED = true ∧
    (beforeF1.HALTED = false ∧ itable (beforeF1.memRead beforeF1.PC.toNat) = none) ∧
    ReadyAt addState (encode (.adcImm 0x0A)) := ⟨by decide, by decide, by decide, by decide⟩
theorem witness_UndefinedOpcodeChangesOnlyTheHalt :
    beforeF1.HALTED = false ∧ itable (beforeF1.memRead beforeF1.PC.toNat) = none := by decide
/-- Both sides of the equivalence: a defined and an undefined opcode. -/
theorem witness_DecodeErrorIsRaisedExactlyOnUndefinedOpcodes :
    (beforeF1.HALTED = false ∧ itable (beforeF1.memRead beforeF1.PC.toNat) = none) ∧
    (addState.HALTED = false ∧ (itable (addState.memRead addState.PC.toNat)).isSome = true) := by
  decide
/-- A session that lowers a counter: the last clause of the statement has its hypotheses met. -/
theorem witness_ResetClearsTheCounters :
    (nextOf (session [.step, .host .recreateEngine] beforeF1)).map (fun t => (t.CYCLES, t.INSTRET)) =
      some (0, 0) ∧ 0 < beforeF1.CYCLES ∧ 0 < beforeF1.INSTRET := by decide
theorem witness_HaltedEngineNeverChanges : haltedState.HALTED = true := by decide
theorem witness_HaltEndsOnlyByReCreation : haltedState.HALTED = true ∧
    (nextOf (session [.step, .host .recreateEngine] haltedState)).map (fun t => t.HALTED) =
      some false := by decide
theorem witness_NoInstructionFaults : addState.HALTED = false ∧
    (itable (addState.memRead addState.PC.toNat)).isSome = true := by decide
/-- From a state that raises the fault, so that the record clause has something to say. -/
theorem witness_StepKeepsTheInvariant : beforeF1.Inv ∧ step beforeF1 = .next haltedState :=
  ⟨⟨by decide, by decide, fun f h => by cases h⟩, by rfl⟩
theorem witness_haltedState_Inv : haltedState.Inv :=
  ⟨by decide, by decide, fun f h => by cases h; exact ⟨by decide, by decide, by decide⟩⟩
theorem witness_NoStepWritesTheInertState : (nextOf (step addState)).isSome = true := by decide
theorem witness_PCAdvancesByTheDeclaredLength : (Instr.adcImm 0x0A).operation ≠ .jmp ∧
    (Instr.andAbsY 0xFFFF).operation ≠ .jmp ∧
    beforeF1.HALTED = false ∧ itable (beforeF1.memRead beforeF1.PC.toNat) = none := by decide
theorem witness_FlagUpdatesTouchOneBitEach : (Flag.C, 0) ∈
      [(Flag.C, 0), (Flag.Z, 1), (Flag.I, 2), (Flag.D, 3), (Flag.B, 4), (Flag.V, 6), (Flag.N, 7)] ∧
    Flag.C ≠ Flag.N ∧ (Instr.andImm 0xFF).operation = .and ∧ (Instr.jmpAbs 0).operation = .jmp := by
  decide
theorem witness_ZeroAndNegativeFollowTheResult : (Instr.andIndY 0xFF).operation ≠ .jmp := by decide
/-- The two clauses with a premise on the operand: 0x00 and 0xFF (R159 c, d). -/
theorem witness_AndLawsOfTheSpec :
    andVector 0x5A 0x00 0x80 = (0x00, 0x02) ∧ andVector 0x5A 0xFF 0x02 = (0x5A, 0x00) := by decide
/-- x = 0x12FF, y = 0x0001: the low bytes carry into the high bytes. -/
theorem witness_TwoByteAdditionChainsThroughCarry :
    let s := { State.reset with A := 0xFF }
    let u := { State.reset with A := 0x12, P := 0x03 }
    s.A.toNat = (0x12FF : Address).toNat % 256 ∧ s.P.getLsbD 0 = false ∧
    u.A.toNat = (0x12FF : Address).toNat / 256 ∧
    (nextOf (exec (.adcImm (lowByte 0x0001)) s)).map (fun t => t.P.getLsbD 0) =
      some (u.P.getLsbD 0) := by decide
theorem witness_PointerWrapReadingsDifferOnlyAtFF : (0xFE : Byte) ≠ 0xFF ∧
    (pointerHighAddress .zp 0xFE).toNat = 0xFF := by decide
/-- A memory that differs from the state's at an address the step does not read. -/
theorem witness_StepDependsOnlyOnTheBytesItReads :
    (∀ a, a ∈ stepReads addState → ((addState.memWrite 0x0602 0x99).mem).read a.toNat =
      addState.mem.read a.toNat) ∧ (addState.memWrite 0x0602 0x99).mem ≠ addState.mem ∧
    (nextOf (step addState)).isSome = true := by
  have h : (stepReads addState).all (fun a => ((addState.memWrite 0x0602 0x99).mem).read a.toNat ==
      addState.mem.read a.toNat) = true := by decide
  exact ⟨fun a ha => by simpa using List.all_eq_true.mp h a ha, by decide, by decide⟩
theorem witness_InertStateHasNoInfluence :
    SameButInert addState { addState with S := 0xFF, P := 0x3C, CYCLES := 9 } ∧
      (nextOf (step addState)).isSome = true :=
  ⟨⟨rfl, rfl, rfl, fun k h => by rcases h with h | h | h | h <;> subst h <;> decide, rfl, rfl, rfl, rfl⟩,
    by decide⟩
theorem witness_EncodeInvertsDecode : decode [0x7D, 0xF0, 0xFF, 0x01] = .ok (.adcAbsX 0xFFF0, [0x01]) :=
  rfl
theorem witness_TableExistsExactlyWhenOpcodesAreDistinct :
    InstrTable.build definitions = some definitions ∧ rowJmpAbs ∈ definitions := by decide
/-- Both clauses: an instruction written over another one, at the top of memory too; ADC immediate at PC. -/
theorem witness_HostWriteIsSeenByTheNextFetch :
    addState.HALTED = false ∧ ReadyAt addState [0x69, 0x0A] ∧
    stepResult (hostWrites 0x0600 (encode (.jmpAbs 0x1234)) addState) =
      some (0x78, 0x00, 0x1234, 3) ∧
    stepResult (hostWrites 0xFFFF (encode (.andImm 0x0F)) { machineAt 0xFFFF [] [] with A := 0x3C }) =
      some (0x0C, 0x00, 0x0001, 2) :=
  ⟨by decide, ⟨by decide, by decide⟩, by decide, by decide⟩
theorem witness_PCWritesWrapModuloMemsize : (Instr.adcImm 0xFF).row.length = 2 ∧
    (machineAt 0xFFFF [] []).PC = 0xFFFF := by decide
theorem witness_HostActionsKeepMemoryCanonical : addState.mem.wf = true ∧
    (nextOf (session [.step, .host (.writeByte 0xFFFF 0)] addState)).isSome = true := by decide
theorem witness_EqualReadsAreEqualMemories :
    addState.mem.wf = true ∧ (addState.memWrite 0x0600 0x69).mem.wf = true ∧
      (∀ a, (addState.mem.get a).isSome = ((addState.memWrite 0x0600 0x69).mem.get a).isSome) ∧
      ∀ addr, addState.memRead addr = (addState.memWrite 0x0600 0x69).memRead addr :=
  ⟨by decide, by decide, fun _ => rfl, fun _ => rfl⟩
theorem witness_RunCountsOneInstructionPerStep :
    (nextOf (Host.Core.run Sys2Proof.core 1 addState)).map (fun t => t.HALTED) = some false := by
  decide
/-- Starts that are not halted, one that is safe for a step and one whose first step raises;
and a halted start. -/
theorem witness_SafeRunIsOneThatDoesNotEndHalted :
    safeFor 1 addState ∧ (beforeF1.HALTED = false ∧ RaisesNext beforeF1) ∧ haltedState.HALTED = true :=
  ⟨⟨by decide, _, by rfl, by rfl⟩, ⟨by decide, by decide, by decide⟩, by decide⟩
theorem witness_ClockFrameIsAllOrNothing : Clock.busy { sourceClock with busy := true } = true ∧
    sourceClock.busy = false := by decide

end Sys2Proof.Tests
end

section
/-! PROOFS. The statements of `10_state.md`: register cells (R12), PC (R16), the flags of P (R22) and
the counters (R36). -/

namespace Sys2Proof.Machine

/-! ### What `exec` answers and keeps -/

/-- Every instruction completes in every state (R185). -/
theorem exec_eq_next (i : Instr) (s : State) : ∃ t, exec i s = .next t := by
  cases hop : i.operation with
  | adc => exact ⟨_, exec_adc hop s⟩
  | and => exact ⟨_, exec_and hop s⟩
  | jmp =>
    cases i with
    | jmpAbs abs16 => exact ⟨_, exec_jmp abs16 s⟩
    | _ => cases hop

/-- A meaning counts nothing: the counters are the step's (R100). -/
theorem exec_counters {i : Instr} {s t : State} (h : exec i s = .next t) :
    t.CYCLES = s.CYCLES ∧ t.INSTRET = s.INSTRET := by
  obtain ⟨-, rfl⟩ | ⟨-, rfl⟩ | ⟨_, -, rfl⟩ := exec_cases h <;> simp

/-- P after an instruction, case by case of the operation (R130, R150, R170). -/
theorem exec_P {i : Instr} {s t : State} (h : exec i s = .next t) :
    (i.operation = .adc ∧ t.P = adcStatus s.A (operandOf i s) s.P) ∨
    (i.operation = .and ∧ t.P = andStatus (s.A &&& operandOf i s) s.P) ∨
    (i.operation = .jmp ∧ t.P = s.P) := by
  obtain ⟨hop, rfl⟩ | ⟨hop, rfl⟩ | ⟨_, rfl, rfl⟩ := exec_cases h
  · exact .inl ⟨hop, by simp⟩
  · exact .inr (.inl ⟨hop, by simp⟩)
  · exact .inr (.inr ⟨rfl, rfl⟩)

/-- PC after an ADC or AND: the declared length on, modulo MEMSIZE (R17, R115). -/
theorem exec_PC_of_data {i : Instr} {s t : State} (hi : i.operation ≠ .jmp)
    (h : exec i s = .next t) : t.PC = wrapAddress (s.PC.toNat + i.row.length) := by
  obtain ⟨-, rfl⟩ | ⟨-, rfl⟩ | ⟨_, rfl, -⟩ := exec_cases h
  · rw [advance_PC_of_data hi, State.adcCore_PC]
  · rw [advance_PC_of_data hi, State.andCore_PC]
  · exact absurd rfl hi

/-! ### Sessions -/

/-- A session that begins with a step request and answers a state runs on from that
step's next state. -/
theorem session_step_cons {es : List SessionEvent} {s t : State}
    (h : session (.step :: es) s = .next t) :
    ∃ u, step s = .next u ∧ session es u = .next t := by
  rw [session] at h
  cases hs : step s with
  | next u => exact ⟨u, rfl, by rwa [hs] at h⟩
  | fault f => rw [hs] at h; cases h
  | refused r => rw [hs] at h; cases h

/-- The induction over a session: what every step and each of the session's host actions keeps, the
session keeps. -/
theorem session_keeps {Q : State → Prop} (hstep : ∀ {u v}, step u = .next v → Q u → Q v)
    {es : List SessionEvent} (hhost : ∀ a, .host a ∈ es → ∀ u, Q u → Q (hostAct a u))
    {s t : State} (h : session es s = .next t) (hs : Q s) : Q t := by
  induction es generalizing s with
  | nil => injection h with h; exact h ▸ hs
  | cons e es ih =>
    have hrest : ∀ a, .host a ∈ es → ∀ u, Q u → Q (hostAct a u) :=
      fun a ha => hhost a (.tail _ ha)
    cases e with
    | host a => exact ih hrest h (hhost a (.head _) s hs)
    | step =>
      obtain ⟨u, hu, hsession⟩ := session_step_cons h
      exact ih hrest hsession (hstep hu hs)

/-! ### The counters -/

/-- Neither counter of `t` is lower than that of `s`. -/
def CountersLE (s t : State) : Prop := s.CYCLES ≤ t.CYCLES ∧ s.INSTRET ≤ t.INSTRET

theorem CountersLE.trans {s t u : State} (h : CountersLE s t) (h' : CountersLE t u) :
    CountersLE s u :=
  ⟨h.1.trans h'.1, h.2.trans h'.2⟩

/-- No step lowers a counter (R30). -/
theorem step_countersLE {s t : State} (h : step s = .next t) : CountersLE s t := by
  obtain ⟨-, rfl⟩ | ⟨-, -, rfl⟩ | ⟨-, i, u, -, -, hu, rfl⟩ := step_cases h
  · exact ⟨le_rfl, le_rfl⟩
  · exact ⟨le_rfl, le_rfl⟩
  · obtain ⟨hcycles, hinstret⟩ := exec_counters hu
    constructor <;> simp [hcycles, hinstret]

/-- No host action lowers a counter but re-creating the engine (R36). -/
theorem hostAct_countersLE {a : HostAction} (ha : a ≠ .recreateEngine) (s : State) :
    CountersLE s (hostAct a s) := by
  cases a with
  | writeReg r v => constructor <;> simp [hostAct]
  | writePC n => exact ⟨le_rfl, le_rfl⟩
  | writeByte addr v => exact ⟨le_rfl, le_rfl⟩
  | recreateEngine => exact absurd rfl ha

/-- A session that does not re-create the engine lowers no counter (R36). -/
theorem session_countersLE {es : List SessionEvent} (hes : .host .recreateEngine ∉ es)
    {s t : State} (h : session es s = .next t) : CountersLE s t :=
  session_keeps (Q := CountersLE s) (fun hu hle => hle.trans (step_countersLE hu))
    (fun _ ha u hle => hle.trans (hostAct_countersLE (fun heq => hes (heq ▸ ha)) u))
    h ⟨le_rfl, le_rfl⟩

/-! ### The flags of P -/

/-- No two flags share a bit of P (R20). -/
theorem flagBit_injective : Function.Injective flagBit := by
  intro f g
  cases f <;> cases g <;> decide

/-- Updates of different flags commute, each writing a bit of its own (R22). -/
theorem setFlag_comm {f g : Flag} (hfg : f ≠ g) (b c : Bool) (p : Byte) :
    setFlag f b (setFlag g c p) = setFlag g c (setFlag f b p) := by
  have hbit : flagBit f ≠ flagBit g := flagBit_injective.ne hfg
  apply BitVec.eq_of_getLsbD_eq
  intro k _
  simp only [setFlag_getLsbD]
  by_cases hf : k = flagBit f
  · have hg : k ≠ flagBit g := hf ▸ hbit
    simp only [if_pos hf, if_neg hg]
  · simp only [if_neg hf]

/-- Add-with-carry leaves the bits of P it does not name (R22, R130). -/
theorem adcStatus_getLsbD_of_unnamed (a m p : Byte) {k : Nat}
    (hk : k = 2 ∨ k = 3 ∨ k = 4 ∨ k = 5) : (adcStatus a m p).getLsbD k = p.getLsbD k := by
  rw [adcStatus_getLsbD, if_neg (by omega), if_neg (by omega), if_neg (by omega),
    if_neg (by omega)]

/-- Logical AND leaves every bit of P but Z and N (R22, R150). -/
theorem andStatus_getLsbD_of_ne (r p : Byte) {k : Nat} (hz : k ≠ 1) (hn : k ≠ 7) :
    (andStatus r p).getLsbD k = p.getLsbD k := by
  rw [andStatus_getLsbD, if_neg hn, if_neg hz]

/-- An instruction leaves every bit of P that its rule does not name (R22). -/
theorem exec_P_unnamed {i : Instr} {s t : State} (h : exec i s = .next t) :
    (∀ k, k = 2 ∨ k = 3 ∨ k = 4 ∨ k = 5 → t.P.getLsbD k = s.P.getLsbD k) ∧
    (i.operation = .and → t.P.getLsbD 0 = s.P.getLsbD 0 ∧ t.P.getLsbD 6 = s.P.getLsbD 6) ∧
    (i.operation = .jmp → t.P = s.P) := by
  obtain ⟨hop, hP⟩ | ⟨hop, hP⟩ | ⟨hop, hP⟩ := exec_P h <;> rw [hP, hop]
  · exact ⟨fun _ hk => adcStatus_getLsbD_of_unnamed _ _ _ hk, nofun, nofun⟩
  · exact ⟨fun _ hk => andStatus_getLsbD_of_ne _ _ (by omega) (by omega),
      fun _ => ⟨andStatus_getLsbD_of_ne _ _ (by omega) (by omega),
        andStatus_getLsbD_of_ne _ _ (by omega) (by omega)⟩, nofun⟩
  · exact ⟨fun _ _ => rfl, nofun, fun _ => rfl⟩

/-! ### PC -/

/-- A host's write to PC leaves the register cells (R16). -/
theorem State.readReg_writePC (s : State) (n : Nat) (r : Reg) :
    (s.writePC n).readReg r = s.readReg r := by
  cases r <;> rfl

/-- The one jump is three bytes long (R80), so a two-byte instruction is none. -/
theorem operation_ne_jmp_of_length_two {i : Instr} (h : i.row.length = 2) :
    i.operation ≠ .jmp := by
  cases i with
  | jmpAbs _ => cases h
  | _ => nofun

/-- The byte after the last address is the one at address 0 (R41). -/
theorem State.readBytes_two_at_top (s : State) :
    s.readBytes 0xFFFF 2 = [s.memRead 0xFFFF, s.memRead 0x0000] := rfl

/-! ### The obligations -/

/-- Settles O50: a cell write stores the value modulo 256 in its own cell only. -/
theorem cellWriteStoresModulo256 : Obligations.CellWriteStoresModulo256 := by
  intro s r q v
  refine ⟨?_, Nat.le_of_lt_succ (s.readReg q).isLt⟩
  rw [hostAct, State.readReg_writeReg, apply_ite BitVec.toNat, BitVec.toNat_ofNat]

/-- Settles O51: writes to PC, and an instruction's advance from 0xFFFF, wrap modulo 65536. -/
theorem pcWritesWrapModuloMemsize : Obligations.PCWritesWrapModuloMemsize := by
  refine ⟨fun s n => ⟨wrapAddress_toNat n, s.readReg_writePC n⟩, fun i s hlen hpc => ?_⟩
  obtain ⟨t, ht⟩ := exec_eq_next i s
  have htpc := exec_PC_of_data (operation_ne_jmp_of_length_two hlen) ht
  rw [hpc, hlen] at htpc
  exact ⟨by rw [hpc]; exact s.readBytes_two_at_top, t, ht, htpc⟩

/-- Settles O31: by the bits of P after each flag update, and after each instruction. -/
theorem flagUpdatesTouchOneBitEach : Obligations.FlagUpdatesTouchOneBitEach := by
  refine ⟨fun fk hfk p b k => ?_, fun f g b c p hfg => setFlag_comm hfg b c p, fun i s => ?_⟩
  · have hbit : flagBit fk.1 = fk.2 := by
      revert fk
      decide
    rw [setFlag_getLsbD, hbit]
  · obtain ⟨t, ht⟩ := exec_eq_next i s
    exact ⟨t, ht, exec_P_unnamed ht⟩

/-- Settles O18: the last clause by induction over the session. -/
theorem resetClearsTheCounters : Obligations.ResetClearsTheCounters := by
  refine ⟨⟨rfl, rfl, rfl⟩, fun _ => ⟨rfl, rfl, rfl⟩, fun es s t h hlower => ?_⟩
  by_contra hes
  obtain ⟨hcycles, hinstret⟩ := session_countersLE hes h
  omega

end Sys2Proof.Machine
end

section
/-! PROOFS. The statements of `20_memory.md`: the wrap of addresses (R41) and the memory write (R44). -/

namespace Sys2Proof.Machine

/-! ### Addresses -/

/-- The address decoder drops every multiple of MEMSIZE (R41). -/
theorem wrapAddress_add_mul_memSize (addr k : Nat) :
    wrapAddress (addr + k * 65536) = wrapAddress addr := by
  apply BitVec.eq_of_toNat_eq
  rw [wrapAddress_toNat, wrapAddress_toNat, Nat.add_mul_mod_self_right]

/-- A read depends on the wrapped address alone (R41, R43). -/
theorem State.memRead_congr_wrap (s : State) {a b : Nat} (h : wrapAddress a = wrapAddress b) :
    s.memRead a = s.memRead b := by
  rw [State.memRead, State.memRead, h]

/-- A write depends on the wrapped address and the value alone (R41, R44). -/
theorem State.memWrite_congr_wrap (s : State) {a b : Nat} (h : wrapAddress a = wrapAddress b)
    (v : Nat) : s.memWrite a v = s.memWrite b v := by
  rw [State.memWrite, State.memWrite, h]

/-! ### What an instruction does to memory -/

/-- No instruction stores: its meaning answers the memory it was given (R44). -/
theorem exec_mem {i : Instr} {s t : State} (h : exec i s = .next t) : t.mem = s.mem := by
  obtain ⟨-, rfl⟩ | ⟨-, rfl⟩ | ⟨_, -, rfl⟩ := exec_cases h
  · rw [State.advance_mem, State.adcCore_mem]
  · rw [State.advance_mem, State.andCore_mem]
  · rw [State.writePC_mem]

/-! ### The obligations -/

/-- Settles O48: a read after the host's write, and the memory every instruction keeps. -/
theorem memoryWriteChangesOneByteOnly : Obligations.MemoryWriteChangesOneByteOnly := by
  refine ⟨fun s addr v b => ?_, fun i s => ?_⟩
  · rw [hostAct, State.memRead_memWrite, apply_ite BitVec.toNat, BitVec.toNat_ofNat]
  · obtain ⟨t, ht⟩ := exec_eq_next i s
    exact ⟨t, ht, State.memRead_congr (exec_mem ht)⟩

/-- Settles O52: reads and writes depend on the wrapped address alone. -/
theorem everyAddressWraps : Obligations.EveryAddressWraps := by
  intro s addr k v
  have hwrap := wrapAddress_add_mul_memSize addr k
  exact ⟨s.memRead_congr_wrap hwrap, s.memWrite_congr_wrap hwrap v⟩

end Sys2Proof.Machine
end

section
/-! PROOFS. The statements of `30_encoding.md`: building the instruction table (R76). -/

namespace Sys2Proof

/-! ### Registration and lookup -/

/-- Registration accepts a definition exactly when its opcode is new, and appends it (R76). -/
theorem InstrTable.register_eq_some_iff {t u : InstrTable} {d : InstrDef} :
    t.register d = some u ↔ d.opcode ∉ t.map InstrDef.opcode ∧ u = t ++ [d] := by
  have hnew : t.lookup d.opcode = none ↔ d.opcode ∉ t.map InstrDef.opcode := by
    simp [InstrTable.lookup_none]
  rw [← hnew, InstrTable.register]
  cases t.lookup d.opcode with
  | none => simp [eq_comm]
  | some _ => simp

/-- In a table of distinct opcodes each definition is the one its opcode finds (R71, R76). -/
theorem InstrTable.lookup_opcode_of_mem {t : InstrTable} (ht : (t.map InstrDef.opcode).Nodup)
    {d : InstrDef} (hd : d ∈ t) : t.lookup d.opcode = some d := by
  cases h : t.lookup d.opcode with
  | none => exact absurd rfl (InstrTable.lookup_none.mp h d hd)
  | some e =>
    obtain ⟨he, hop⟩ := InstrTable.lookup_some h
    rw [List.inj_on_of_nodup_map ht he hd hop]

/-! ### Building a table -/

/-- Registering a list into a table of distinct opcodes succeeds exactly when the opcodes of both
together are distinct, and appends the list (R76). -/
theorem InstrTable.foldlM_register_eq_some_iff {ds t u : InstrTable}
    (ht : (t.map InstrDef.opcode).Nodup) :
    ds.foldlM InstrTable.register t = some u ↔
      ((t ++ ds).map InstrDef.opcode).Nodup ∧ u = t ++ ds := by
  induction ds generalizing t with
  | nil => simp [ht, eq_comm]
  | cons d ds ih =>
    have hcons : (d :: ds).foldlM InstrTable.register t = some u ↔
        d.opcode ∉ t.map InstrDef.opcode ∧
          ds.foldlM InstrTable.register (t ++ [d]) = some u := by
      simp only [List.foldlM_cons, Option.bind_eq_bind, Option.bind_eq_some_iff,
        InstrTable.register_eq_some_iff, and_assoc, exists_and_left, exists_eq_left]
    rw [hcons]
    by_cases hd : d.opcode ∈ t.map InstrDef.opcode
    · have hrep : ¬ ((t ++ d :: ds).map InstrDef.opcode).Nodup := by
        rw [List.map_append, List.map_cons, List.nodup_middle, List.nodup_cons]
        exact fun h => h.1 (List.mem_append_left _ hd)
      exact ⟨fun h => absurd hd h.1, fun h => absurd h.1 hrep⟩
    · have ht' : ((t ++ [d]).map InstrDef.opcode).Nodup := by
        rw [List.map_append, List.map_singleton, List.nodup_middle, List.append_nil]
        exact List.nodup_cons.mpr ⟨hd, ht⟩
      rw [and_iff_right hd, ih ht', List.append_assoc, List.singleton_append]

/-- A list of definitions builds a table exactly when its opcodes are distinct: itself (R76). -/
theorem InstrTable.build_eq_some_iff {ds t : InstrTable} :
    InstrTable.build ds = some t ↔ (ds.map InstrDef.opcode).Nodup ∧ t = ds :=
  InstrTable.foldlM_register_eq_some_iff List.nodup_nil

/-! ### The obligation -/

/-- Settles O47: by induction over the registrations, for every table of distinct opcodes they start
from. -/
theorem tableExistsExactlyWhenOpcodesAreDistinct :
    Obligations.TableExistsExactlyWhenOpcodesAreDistinct := by
  refine fun ds => ⟨?_, fun t h => ?_⟩
  · simp only [Option.isSome_iff_exists, InstrTable.build_eq_some_iff, exists_and_left,
      exists_eq, and_true]
  · obtain ⟨hnodup, rfl⟩ := InstrTable.build_eq_some_iff.mp h
    exact ⟨rfl, fun _ => InstrTable.lookup_opcode_of_mem hnodup⟩

end Sys2Proof
end

section
/-! PROOFS. The statements of `60_exceptions.md`: no instruction raises an exception (R185). -/

namespace Sys2Proof.Machine

/-! ### What an instruction does to the halt, and a step that finds one -/

/-- No instruction halts the engine, ends a halt, or records a fault (R185). -/
theorem exec_HALTED_raised {i : Instr} {s t : State} (h : exec i s = .next t) :
    t.HALTED = s.HALTED ∧ t.raised = s.raised := by
  obtain ⟨-, rfl⟩ | ⟨-, rfl⟩ | ⟨_, -, rfl⟩ := exec_cases h <;> simp

/-- A step on a defined opcode executes an instruction of that definition and counts it, whatever the
operand bytes (R100, R85). -/
theorem step_of_defined {s : State} {d : InstrDef} (h : s.HALTED = false)
    (hd : itable (s.memRead s.PC.toNat) = some d) :
    ∃ i u, i.row = d ∧ exec i s = .next u ∧ step s = .next (u.retire d) := by
  obtain ⟨i, hi, rfl⟩ := State.fetch_defined hd
  obtain ⟨u, hu⟩ := exec_eq_next i s
  exact ⟨i, u, rfl, hu, step_of_fetch h hi hu⟩

/-! ### The obligation -/

/-- Settles O26: every instruction completes and keeps the halt, so a step on a defined opcode only
adds its count. -/
theorem noInstructionFaults : Obligations.NoInstructionFaults := by
  refine ⟨fun i s => ?_, fun s hrun hdef => ?_⟩
  · obtain ⟨t, ht⟩ := exec_eq_next i s
    exact ⟨t, ht, exec_HALTED_raised ht⟩
  · obtain ⟨d, hd⟩ := Option.isSome_iff_exists.mp hdef
    obtain ⟨i, u, -, hu, hstep⟩ := step_of_defined hrun hd
    obtain ⟨hhalted, -⟩ := exec_HALTED_raised hu
    obtain ⟨-, hinstret⟩ := exec_counters hu
    exact ⟨u.retire d, hstep, by rw [State.retire_HALTED, hhalted, hrun],
      by rw [State.retire_INSTRET, hinstret]⟩

end Sys2Proof.Machine
end

section
/-! PROOFS. The statements of `30_encoding.md`: the decoder and the encoder (R70 to R74, R84, R85). -/

namespace Sys2Proof

open Claims

/-! ### The row of an instruction -/

/-- What the table says of each instruction's row (R72, R80). -/
theorem Instr.encodingRow : ∀ i : Instr, Laws.EncodingRow.Statement i
  | .adcImm d8 => Laws.EncodingRow.adcImm d8
  | .adcZp d8 => Laws.EncodingRow.adcZp d8
  | .adcZpX d8 => Laws.EncodingRow.adcZpX d8
  | .adcAbs abs16 => Laws.EncodingRow.adcAbs abs16
  | .adcAbsX abs16 => Laws.EncodingRow.adcAbsX abs16
  | .adcAbsY abs16 => Laws.EncodingRow.adcAbsY abs16
  | .adcIndX d8 => Laws.EncodingRow.adcIndX d8
  | .adcIndY d8 => Laws.EncodingRow.adcIndY d8
  | .andImm d8 => Laws.EncodingRow.andImm d8
  | .andZp d8 => Laws.EncodingRow.andZp d8
  | .andZpX d8 => Laws.EncodingRow.andZpX d8
  | .andAbs abs16 => Laws.EncodingRow.andAbs abs16
  | .andAbsX abs16 => Laws.EncodingRow.andAbsX abs16
  | .andAbsY abs16 => Laws.EncodingRow.andAbsY abs16
  | .andIndX d8 => Laws.EncodingRow.andIndX d8
  | .andIndY d8 => Laws.EncodingRow.andIndY d8
  | .jmpAbs abs16 => Laws.EncodingRow.jmpAbs abs16

theorem Instr.itable_row_opcode (i : Instr) : itable i.row.opcode = some i.row := by
  obtain ⟨hopcode, -, -, -⟩ := i.encodingRow
  exact hopcode

theorem Instr.row_behavior (i : Instr) : i.row.behavior = i.operation := by
  obtain ⟨-, hbehavior, -, -⟩ := i.encodingRow
  exact hbehavior

theorem Instr.row_mode (i : Instr) : i.row.mode = i.mode := by
  obtain ⟨-, -, hmode, -⟩ := i.encodingRow
  exact hmode

theorem Instr.row_mem_definitions (i : Instr) : i.row ∈ definitions :=
  (InstrTable.lookup_some i.itable_row_opcode).1

/-- Every instruction is well formed for the table of R80 (R84, R101). -/
theorem Instr.wf_definitions (i : Instr) : i.wf definitions = true :=
  List.any_eq_true.mpr ⟨i.row, i.row_mem_definitions, by simp [i.row_behavior, i.row_mode]⟩

/-- R72, for the rows of R80. -/
theorem length_of_mem_definitions {d : InstrDef} (hd : d ∈ definitions) :
    d.length = 1 + d.mode.operandBytes := by
  revert d
  decide

/-- The costs of R80 are 2 to 6 cycles (D6, log 6). -/
theorem cycles_of_mem_definitions {d : InstrDef} (hd : d ∈ definitions) :
    2 ≤ d.cycles ∧ d.cycles ≤ 6 := by
  revert d
  decide

/-! ### The operand field -/

/-- An instruction has the operand bytes of its mode (R70). -/
theorem Instr.operandField_length (i : Instr) : i.operandField.length = i.mode.operandBytes := by
  cases i <;> rfl

/-- The operand fields are read back from the bytes they are written as (R74). -/
theorem instrOf_operandField (i : Instr) (rest : List Byte) :
    instrOf i.operation i.mode ((i.operandField ++ rest).headD 0)
      ((i.operandField ++ rest).tail.headD 0) = some i := by
  cases i <;> simp [instrOf, Instr.operation, Instr.mode, Instr.operandField]

/-- As many bytes as a mode reads are its first byte and the byte after it, or the first alone. -/
theorem take_headD_append_drop {rest : List Byte} {m : Mode} (h : m.operandBytes ≤ rest.length) :
    [rest.headD 0, rest.tail.headD 0].take m.operandBytes ++ rest.drop m.operandBytes = rest := by
  have hm : m.operandBytes = 1 ∨ m.operandBytes = 2 := by cases m <;> decide
  match rest, hm with
  | [], hm => simp at h; omega
  | [b], .inl hm => simp [hm]
  | [b], .inr hm => simp [hm] at h
  | b :: c :: bs, .inl hm => simp [hm]
  | b :: c :: bs, .inr hm => simp [hm]

/-! ### What the decoder answers -/

/-- Everything the decoder can answer, and exactly when (R71, R73, R84). -/
theorem decode_cases (bytes : List Byte) :
    (bytes = [] ∧ decode bytes = .error .noBytes) ∨
    (∃ op rest, bytes = op :: rest ∧ itable op = none ∧
      decode bytes = .error (.undefinedOpcode op)) ∨
    (∃ op rest d, bytes = op :: rest ∧ itable op = some d ∧ bytes.length < d.length ∧
      decode bytes = .error (.truncated op)) ∨
    (∃ op rest d i, bytes = op :: rest ∧ itable op = some d ∧ d.length ≤ bytes.length ∧
      i.row = d ∧ encode i ++ rest.drop d.mode.operandBytes = bytes ∧
      decode bytes = .ok (i, rest.drop d.mode.operandBytes)) := by
  match bytes with
  | [] => exact .inl ⟨rfl, rfl⟩
  | op :: rest =>
    right
    cases ht : itable op with
    | none => exact .inl ⟨op, rest, rfl, ht, by simp [decode, ht]⟩
    | some d =>
      obtain ⟨hd, rfl⟩ := InstrTable.lookup_some ht
      have hlength := length_of_mem_definitions hd
      right
      by_cases hshort : rest.length < d.mode.operandBytes
      · exact .inl ⟨d.opcode, rest, d, rfl, ht, by simp; omega,
          by simp [decode, ht, decodeWith, hshort]⟩
      · obtain ⟨i, hi, hrow, hfield⟩ := instrOf_row hd (rest.headD 0) (rest.tail.headD 0)
        refine .inr ⟨d.opcode, rest, d, i, rfl, ht, by simp; omega, hrow, ?_, ?_⟩
        · rw [encode, hrow, hfield, List.cons_append, take_headD_append_drop (by omega)]
        · rw [decode, ht]
          simp only [decodeWith, if_neg hshort, hi]

/-- Decoding an encoded instruction gives it back, with whatever follows it (R70, R73, R74). -/
theorem decode_encode_append (i : Instr) (rest : List Byte) :
    decode (encode i ++ rest) = .ok (i, rest) := by
  have hlength : (i.operandField ++ rest).length = i.mode.operandBytes + rest.length := by
    rw [List.length_append, i.operandField_length]
  rw [encode, List.cons_append, decode, i.itable_row_opcode]
  simp only [decodeWith]
  rw [i.row_behavior, i.row_mode, if_neg (by omega), instrOf_operandField,
    ← i.operandField_length, List.drop_left]

/-- Whatever the decoder accepts is the encoding of what it answers (R70, R71). -/
theorem encode_append_of_decode {bytes rest : List Byte} {i : Instr}
    (h : decode bytes = .ok (i, rest)) : encode i ++ rest = bytes := by
  obtain ⟨-, hdec⟩ | ⟨_, _, -, -, hdec⟩ | ⟨_, _, _, -, -, -, hdec⟩ |
    ⟨op, tail, d, j, -, -, -, -, hbytes, hdec⟩ := decode_cases bytes
  · rw [hdec] at h; cases h
  · rw [hdec] at h; cases h
  · rw [hdec] at h; cases h
  · rw [hdec] at h; cases h
    exact hbytes

/-! ### The obligations -/

/-- Settles O44: the operand fields are read back from the bytes they are written as. -/
theorem decodeInvertsEncode : Obligations.DecodeInvertsEncode := decode_encode_append

/-- Settles O45: an accepted list is its definition's opcode and its mode's operand bytes. -/
theorem encodeInvertsDecode : Obligations.EncodeInvertsDecode :=
  fun _ _ i h => ⟨encode_append_of_decode h, i.wf_definitions⟩

/-- Settles O46: each of the decoder's answers with the reason it has for it. -/
theorem decoderRejectsForNamedReasonsOnly : Obligations.DecoderRejectsForNamedReasonsOnly := by
  intro bytes
  obtain ⟨rfl, hdec⟩ | ⟨op, rest, rfl, ht, hdec⟩ | ⟨op, rest, d, rfl, ht, hshort, hdec⟩ |
    ⟨op, rest, d, i, rfl, ht, hlong, -, -, hdec⟩ := decode_cases bytes <;> rw [hdec]
  · simp
  · exact ⟨by simp, fun op' => by grind, fun op' => by grind, by simp⟩
  · exact ⟨by simp, fun op' => by grind, fun op' => by grind, by simp⟩
  · exact ⟨by simp, fun op' => by grind, fun op' => by grind, by simp⟩

/-- Settles O42: the opcodes of the table's rows are the bytes listed, in another order. -/
theorem onlySeventeenOpcodesAreDefined : Obligations.OnlySeventeenOpcodesAreDefined := by
  refine ⟨rfl, fun op => ?_⟩
  have hopcodes : (definitions.map InstrDef.opcode).Perm definedOpcodes := by decide
  rw [← hopcodes.mem_iff, Option.isSome_iff_ne_none, itable, ne_eq, InstrTable.lookup_none]
  simp

/-- Settles O43: the decoder run on each word. -/
theorem decoderReadsWordsOfTheSpec : Obligations.DecoderReadsWordsOfTheSpec :=
  ⟨rfl, rfl, rfl, rfl, rfl, rfl⟩

end Sys2Proof
end

section
/-! PROOFS. The statements of `40_step_and_addressing.md` section 1, `10_state.md` section 3 and
`60_exceptions.md` section 2: the step (R100), PC (R17), the decode error and the halt (R181 to R183). -/

namespace Sys2Proof.Machine

open Claims

/-! ### Fetching an instruction that stands at PC -/

/-- With an instruction's bytes at PC the step fetches that instruction (R100, R114). -/
theorem State.fetch_of_readyAt {s : State} {i : Instr} (h : ReadyAt s (encode i)) :
    s.fetch = .ok i := by
  obtain ⟨-, hbytes⟩ := h
  rw [encode, List.length_cons, State.readBytes, List.cons.injEq, i.operandField_length] at hbytes
  obtain ⟨hop, hfield⟩ := hbytes
  have hdec := decode_encode_append i []
  rw [List.append_nil, encode] at hdec
  rw [State.fetch, State.fetchBytes, hop, i.itable_row_opcode]
  simp only [i.row_mode, hfield, hdec]

/-- A step with an instruction's bytes at PC is that instruction, counted (R100). -/
theorem step_of_readyAt {s t : State} {i : Instr} (h : ReadyAt s (encode i))
    (ht : exec i s = .next t) : step s = .next (t.retire i.row) :=
  step_of_fetch h.1 (State.fetch_of_readyAt h) ht

/-- Every step answers a next state (R100, R185, log 1). -/
theorem step_eq_next (s : State) : ∃ t, step s = .next t := by
  cases hrun : s.HALTED with
  | true => exact ⟨s, step_of_halted hrun⟩
  | false =>
    cases ht : itable (s.memRead s.PC.toNat) with
    | none => exact ⟨_, step_of_undefined hrun ht⟩
    | some d =>
      obtain ⟨_, _, -, -, hstep⟩ := step_of_defined hrun ht
      exact ⟨_, hstep⟩

/-! ### The reads of a step (R114) -/

/-- On an undefined opcode the step reads the opcode alone (R182). -/
theorem stepReads_of_undefined {s : State} (hrun : s.HALTED = false)
    (hundef : itable (s.memRead s.PC.toNat) = none) : stepReads s = [s.PC] := by
  rw [stepReads, State.fetch_undefined hundef, wrapAddress_of_address, hrun]
  rfl

/-- With an instruction at PC the step reads its bytes and then what its operand needs. -/
theorem stepReads_of_fetch {s : State} {i : Instr} (hrun : s.HALTED = false)
    (hi : s.fetch = .ok i) :
    stepReads s = s.PC ::
      (addressesFrom (s.PC.toNat + 1) i.mode.operandBytes ++ dataReads i s) := by
  rw [stepReads, hi, wrapAddress_of_address, hrun]
  rfl

/-! ### What no instruction and no step touches -/

/-- No instruction touches X, Y, S, memory or the halt (R14, R44, R185). -/
theorem exec_untouched {i : Instr} {s t : State} (h : exec i s = .next t) : Untouched s t := by
  obtain ⟨hhalted, hraised⟩ := exec_HALTED_raised h
  have hmem := State.memRead_congr (exec_mem h)
  obtain ⟨-, rfl⟩ | ⟨-, rfl⟩ | ⟨_, -, rfl⟩ := exec_cases h <;>
    exact ⟨by simp, by simp, by simp, hmem, hhalted, hraised⟩

/-- No step stores: it answers the memory it was given (R44). -/
theorem step_mem {s t : State} (h : step s = .next t) : t.mem = s.mem := by
  obtain ⟨-, rfl⟩ | ⟨-, -, rfl⟩ | ⟨-, i, u, -, -, hu, rfl⟩ := step_cases h
  · rfl
  · rfl
  · rw [State.retire_mem, exec_mem hu]

/-- A step keeps a halt (R183). -/
theorem step_keeps_HALTED {s t : State} (h : step s = .next t) (hs : s.HALTED = true) :
    t.HALTED = true := by
  rw [step_of_halted hs] at h
  cases h
  exact hs

/-- A step that ends unhalted has executed and counted one instruction (R100, R181, R183). -/
theorem step_counts {s t : State} (h : step s = .next t) (ht : t.HALTED = false) :
    ∃ d ∈ definitions, t.CYCLES = s.CYCLES + d.cycles ∧ t.INSTRET = s.INSTRET + 1 := by
  obtain ⟨hs, rfl⟩ | ⟨-, -, rfl⟩ | ⟨-, i, u, -, -, hu, rfl⟩ := step_cases h
  · rw [hs] at ht; cases ht
  · cases ht
  · obtain ⟨hcycles, hinstret⟩ := exec_counters hu
    exact ⟨i.row, i.row_mem_definitions, by simp [hcycles], by simp [hinstret]⟩

/-! ### The host and the halt -/

/-- Only re-creating the engine ends a halt (R32). -/
theorem hostAct_keeps_HALTED {a : HostAction} (ha : a ≠ .recreateEngine) {s : State}
    (h : s.HALTED = true) : (hostAct a s).HALTED = true := by
  cases a with
  | writeReg r v => rw [hostAct, State.writeReg_HALTED]; exact h
  | writePC n => exact h
  | writeByte addr v => exact h
  | recreateEngine => exact absurd rfl ha

/-! ### The obligations -/

/-- Settles O27: a step that raises records what stands at PC, and no step changes what has been
recorded. -/
theorem stepKeepsTheInvariant : Obligations.StepKeepsTheInvariant := by
  intro s t hs h
  obtain ⟨-, rfl⟩ | ⟨-, hundef, rfl⟩ | ⟨hrun, i, u, -, -, hu, rfl⟩ := step_cases h
  · exact hs
  · refine ⟨hs.memory, rfl, fun f hf => ?_⟩
    rw [State.takeDecodeError_raised] at hf
    cases hf
    exact ⟨rfl, rfl, hundef⟩
  · obtain ⟨hhalted, hraised⟩ := exec_HALTED_raised hu
    have hnone : s.raised = none :=
      Option.not_isSome_iff_eq_none.mp (by rw [← hs.halted, hrun]; nofun)
    refine ⟨exec_mem hu ▸ hs.memory, ?_, fun f hf => ?_⟩
    · rw [State.retire_HALTED, State.retire_raised, hhalted, hraised, hs.halted]
    · rw [State.retire_raised, hraised, hnone] at hf
      cases hf

/-- Settles O21: the three branches of the step. -/
theorem stepRunsTheInstructionAtPC : Obligations.StepRunsTheInstructionAtPC := by
  refine fun s => ⟨step_of_halted, step_of_undefined, fun i h => ?_⟩
  obtain ⟨t, ht⟩ := exec_eq_next i s
  rw [step_of_readyAt h ht, ht]
  rfl

/-- Settles O22: the next state is `takeDecodeError`'s. -/
theorem undefinedOpcodeChangesOnlyTheHalt : Obligations.UndefinedOpcodeChangesOnlyTheHalt := by
  intro s hrun hundef
  exact ⟨stepReads_of_undefined hrun hundef, _, step_of_undefined hrun hundef,
    rfl, rfl, rfl, rfl, rfl, rfl, rfl, fun _ => rfl, rfl, rfl⟩

/-- Settles O23: on a defined opcode the step executes an instruction, and none halts. -/
theorem decodeErrorIsRaisedExactlyOnUndefinedOpcodes :
    Obligations.DecodeErrorIsRaisedExactlyOnUndefinedOpcodes := by
  intro s hrun
  cases ht : itable (s.memRead s.PC.toNat) with
  | none => exact ⟨_, step_of_undefined hrun ht, by simp, fun _ => rfl⟩
  | some d =>
    obtain ⟨i, u, -, hu, hstep⟩ := step_of_defined hrun ht
    have hhalted : u.HALTED = false := (exec_HALTED_raised hu).1.trans hrun
    exact ⟨_, hstep, by simp [hhalted], by simp [hhalted]⟩

/-- Settles O25: by induction over the session, every other event keeping the halt. -/
theorem haltEndsOnlyByReCreation : Obligations.HaltEndsOnlyByReCreation := by
  intro es s t hs h ht
  by_contra hes
  have hkept : t.HALTED = true :=
    session_keeps (Q := fun u => u.HALTED = true) step_keeps_HALTED
      (fun _ ha _ => hostAct_keeps_HALTED fun heq => hes (heq ▸ ha)) h hs
  rw [hkept] at ht
  cases ht

/-- Settles O29: the frame of every instruction, and a decode error's. -/
theorem noStepWritesTheInertState : Obligations.NoStepWritesTheInertState := by
  intro s t h
  have hmem := State.memRead_congr (step_mem h)
  obtain ⟨-, rfl⟩ | ⟨-, -, rfl⟩ | ⟨-, i, u, -, -, hu, rfl⟩ := step_cases h
  · exact ⟨rfl, rfl, rfl, fun _ _ => rfl, hmem⟩
  · exact ⟨rfl, rfl, rfl, fun _ _ => rfl, hmem⟩
  · have hframe := exec_untouched hu
    exact ⟨hframe.x, hframe.y, hframe.stack, (exec_P_unnamed hu).1, hmem⟩

/-- Settles O30: the common tail of ADC and AND, the jump, and `takeDecodeError`. -/
theorem pcAdvancesByTheDeclaredLength : Obligations.PCAdvancesByTheDeclaredLength := by
  refine ⟨fun i s hi => ?_, fun hhll s => ?_, fun i _ => ?_, fun s hrun hundef => ?_⟩
  · obtain ⟨t, ht⟩ := exec_eq_next i s
    exact ⟨t, ht, by rw [exec_PC_of_data hi ht, wrapAddress_toNat]⟩
  · exact ⟨_, exec_jmp hhll s, wrapAddress_of_address hhll⟩
  · rw [length_of_mem_definitions i.row_mem_definitions]
    cases i.row.mode <;> decide
  · exact ⟨_, step_of_undefined hrun hundef, rfl⟩

end Sys2Proof.Machine
end

section
/-! PROOFS. The statements of `41_adc.md`, `42_and.md` and `43_jmp.md` sections 1 and 2: the effect of
each instruction (R130 to R138, R150 to R158, R170), by itself and as a step. -/

namespace Sys2Proof.Machine

open Claims

/-! ### The effect of each operation -/

/-- A and P after an ADC (R130, D7). -/
theorem exec_A_P_of_adc {i : Instr} (hop : i.operation = .adc) {s t : State}
    (h : exec i s = .next t) :
    t.A = adcResult s.A (operandOf i s) (readFlag .C s.P) ∧
    t.P = adcStatus s.A (operandOf i s) s.P := by
  rw [exec_adc hop] at h
  cases h
  simp

/-- A and P after an AND (R150, D7). -/
theorem exec_A_P_of_and {i : Instr} (hop : i.operation = .and) {s t : State}
    (h : exec i s = .next t) :
    t.A = s.A &&& operandOf i s ∧ t.P = andStatus (s.A &&& operandOf i s) s.P := by
  rw [exec_and hop] at h
  cases h
  simp

/-- V of R130 as its own words say it (R21, R23). -/
theorem overflowOf_eq_decide (a m r : Byte) :
    overflowOf a m r =
      decide (a.getLsbD 7 = m.getLsbD 7 ∧ r.getLsbD 7 ≠ a.getLsbD 7) := by
  rw [overflowOf]
  cases a.getLsbD 7 <;> cases m.getLsbD 7 <;> cases r.getLsbD 7 <;> rfl

/-- What each ADC instruction does (R130, R115). -/
theorem adcEffect_of_exec {i : Instr} (hop : i.operation = .adc) {s t : State}
    (h : exec i s = .next t) : AdcEffect (operandOf i s) i.row.length s t := by
  obtain ⟨hA, hP⟩ := exec_A_P_of_adc hop h
  have hbit (k : Nat) := congrArg (fun p => p.getLsbD k) hP
  simp only [adcStatus_getLsbD, ← hA] at hbit
  exact {
    result := by rw [hA, adcResult_toNat]; rfl
    carry := hbit 0
    zero := (hbit 1).trans (zeroOf_eq_decide t.A)
    overflow := (hbit 6).trans (overflowOf_eq_decide _ _ _)
    negative := hbit 7
    otherBits := (exec_P_unnamed h).1
    pc := by rw [exec_PC_of_data (by rw [hop]; nofun) h, wrapAddress_toNat]
    rest := exec_untouched h }

/-- What each AND instruction does (R150, R115). -/
theorem andEffect_of_exec {i : Instr} (hop : i.operation = .and) {s t : State}
    (h : exec i s = .next t) : AndEffect (operandOf i s) i.row.length s t := by
  obtain ⟨hA, hP⟩ := exec_A_P_of_and hop h
  have hbit (k : Nat) := congrArg (fun p => p.getLsbD k) hP
  simp only [andStatus_getLsbD, ← hA] at hbit
  exact {
    result := fun k _ => by rw [hA, BitVec.getLsbD_and]
    zero := (hbit 1).trans (zeroOf_eq_decide t.A)
    negative := hbit 7
    otherBits := fun k hk => by rw [hbit, if_neg (by omega), if_neg (by omega)]
    pc := by rw [exec_PC_of_data (by rw [hop]; nofun) h, wrapAddress_toNat]
    rest := exec_untouched h }

/-- What the jump does (R170). -/
theorem jmpEffect_of_exec {hhll : Address} {s t : State} (h : exec (.jmpAbs hhll) s = .next t) :
    JmpEffect hhll.toNat s t := by
  rw [exec_jmp] at h
  cases h
  exact ⟨congrArg BitVec.toNat (wrapAddress_of_address hhll), rfl, rfl,
    exec_untouched (exec_jmp hhll s)⟩

/-! ### The same effect after counting -/

theorem untouched_retire {s t : State} (h : Untouched s t) (d : InstrDef) :
    Untouched s (t.retire d) :=
  { h with }

theorem adcEffect_retire {m : Byte} {len : Nat} {s t : State} (h : AdcEffect m len s t)
    (d : InstrDef) : AdcEffect m len s (t.retire d) :=
  { h with rest := untouched_retire h.rest d }

theorem andEffect_retire {m : Byte} {len : Nat} {s t : State} (h : AndEffect m len s t)
    (d : InstrDef) : AndEffect m len s (t.retire d) :=
  { h with rest := untouched_retire h.rest d }

theorem jmpEffect_retire {target : Nat} {s t : State} (h : JmpEffect target s t)
    (d : InstrDef) : JmpEffect target s (t.retire d) :=
  { h with rest := untouched_retire h.rest d }

/-! ### An instruction by itself and as a step -/

/-- An effect of `exec` that counting keeps is the instruction's effect by itself, uncounted, and the
effect of a step with the instruction's bytes at PC, counted (R100). -/
theorem exec_and_step {Effect : State → State → Prop} {i : Instr} {s : State}
    (hexec : ∀ {t}, exec i s = .next t → Effect s t)
    (hretire : ∀ {t}, Effect s t → Effect s (t.retire i.row)) :
    (∃ t, exec i s = .next t ∧ Effect s t ∧ Uncounted s t) ∧
    (ReadyAt s (encode i) → ∃ t, step s = .next t ∧ Effect s t ∧ Counted i.row.cycles s t) := by
  obtain ⟨t, ht⟩ := exec_eq_next i s
  obtain ⟨hcycles, hinstret⟩ := exec_counters ht
  refine ⟨⟨t, ht, hexec ht, hcycles, hinstret⟩,
    fun h => ⟨t.retire i.row, step_of_readyAt h ht, hretire (hexec ht), ?_, ?_⟩⟩
  · rw [State.retire_CYCLES, hcycles]
  · rw [State.retire_INSTRET, hinstret]

/-- Every ADC instruction, its operand byte being `m`. -/
theorem adc_exec_and_step {i : Instr} (hop : i.operation = .adc) {s : State} {m : Byte}
    (hm : operandOf i s = m) :
    (∃ t, exec i s = .next t ∧ AdcEffect m i.row.length s t ∧ Uncounted s t) ∧
    (ReadyAt s (encode i) →
      ∃ t, step s = .next t ∧ AdcEffect m i.row.length s t ∧ Counted i.row.cycles s t) :=
  exec_and_step (fun h => hm ▸ adcEffect_of_exec hop h) (fun h => adcEffect_retire h i.row)

/-- Every AND instruction, its operand byte being `m`. -/
theorem and_exec_and_step {i : Instr} (hop : i.operation = .and) {s : State} {m : Byte}
    (hm : operandOf i s = m) :
    (∃ t, exec i s = .next t ∧ AndEffect m i.row.length s t ∧ Uncounted s t) ∧
    (ReadyAt s (encode i) →
      ∃ t, step s = .next t ∧ AndEffect m i.row.length s t ∧ Counted i.row.cycles s t) :=
  exec_and_step (fun h => hm ▸ andEffect_of_exec hop h) (fun h => andEffect_retire h i.row)

/-- The two operand bytes at hand are those of the 16-bit operand they make (R48, R74). -/
theorem readyAt_lowByte_highByte {s : State} {op ll hh : Byte} {hhll : Address}
    (hword : hhll.toNat = hh.toNat * 256 + ll.toNat) (h : ReadyAt s [op, ll, hh]) :
    ReadyAt s [op, lowByte hhll, highByte hhll] := by
  obtain rfl : hhll = assembleWord ll hh :=
    BitVec.eq_of_toNat_eq (by rw [assembleWord_toNat, hword])
  rwa [lowByte_assembleWord, highByte_assembleWord]

/-- A statement about a step with a three-byte encoding at PC, in the words of the obligations. -/
theorem step_of_word {s : State} {op : Byte} {hhll : Address} {Q : Prop}
    (h : ReadyAt s [op, lowByte hhll, highByte hhll] → Q) (ll hh : Byte)
    (hword : hhll.toNat = hh.toNat * 256 + ll.toNat) (hready : ReadyAt s [op, ll, hh]) : Q :=
  h (readyAt_lowByte_highByte hword hready)

/-! ### The obligations: ADC -/

/-- Settles O1: ADC of the second byte. -/
theorem adcImmediateResult : Obligations.AdcImmediateResult :=
  fun nn _ => adc_exec_and_step (i := .adcImm nn) rfl rfl

/-- Settles O2: ADC of the zero-page byte. -/
theorem adcZeroPageResult : Obligations.AdcZeroPageResult :=
  fun nn s => adc_exec_and_step (i := .adcZp nn) rfl (operandAt_eaZeropage nn s)

/-- Settles O3: ADC of the byte at the zero-page sum. -/
theorem adcZeroPageXResult : Obligations.AdcZeroPageXResult :=
  fun nn s => adc_exec_and_step (i := .adcZpX nn) rfl (operandAt_eaZeropageX nn s)

/-- Settles O4: ADC of the byte at the 16-bit address. -/
theorem adcAbsoluteResult : Obligations.AdcAbsoluteResult := fun hhll s =>
  (adc_exec_and_step (i := .adcAbs hhll) rfl (operandAt_eaAbsolute hhll s)).imp_right step_of_word

/-- Settles O5: ADC of the byte at the 16-bit address plus X. -/
theorem adcAbsoluteXResult : Obligations.AdcAbsoluteXResult := fun hhll s =>
  (adc_exec_and_step (i := .adcAbsX hhll) rfl (operandAt_eaAbsoluteX hhll s)).imp_right step_of_word

/-- Settles O6: ADC of the byte at the 16-bit address plus Y. -/
theorem adcAbsoluteYResult : Obligations.AdcAbsoluteYResult := fun hhll s =>
  (adc_exec_and_step (i := .adcAbsY hhll) rfl (operandAt_eaAbsoluteY hhll s)).imp_right step_of_word

/-- Settles O7: ADC of the byte at the zero-page sum, one level. -/
theorem adcIndirectXResult : Obligations.AdcIndirectXResult :=
  fun nn s => adc_exec_and_step (i := .adcIndX nn) rfl (operandAt_eaIndirectX nn s)

/-- Settles O8: ADC of the byte at the pointer plus Y. -/
theorem adcIndirectYResult : Obligations.AdcIndirectYResult :=
  fun nn s => adc_exec_and_step (i := .adcIndY nn) rfl (operandAt_eaIndirectY nn s)

/-! ### The obligations: AND -/

/-- Settles O9: AND with the second byte. -/
theorem andImmediateResult : Obligations.AndImmediateResult :=
  fun nn _ => and_exec_and_step (i := .andImm nn) rfl rfl

/-- Settles O10: AND with the zero-page byte. -/
theorem andZeroPageResult : Obligations.AndZeroPageResult :=
  fun nn s => and_exec_and_step (i := .andZp nn) rfl (operandAt_eaZeropage nn s)

/-- Settles O11: AND with the byte at the zero-page sum. -/
theorem andZeroPageXResult : Obligations.AndZeroPageXResult :=
  fun nn s => and_exec_and_step (i := .andZpX nn) rfl (operandAt_eaZeropageX nn s)

/-- Settles O12: AND with the byte at the 16-bit address. -/
theorem andAbsoluteResult : Obligations.AndAbsoluteResult := fun hhll s =>
  (and_exec_and_step (i := .andAbs hhll) rfl (operandAt_eaAbsolute hhll s)).imp_right step_of_word

/-- Settles O13: AND with the byte at the 16-bit address plus X. -/
theorem andAbsoluteXResult : Obligations.AndAbsoluteXResult := fun hhll s =>
  (and_exec_and_step (i := .andAbsX hhll) rfl (operandAt_eaAbsoluteX hhll s)).imp_right step_of_word

/-- Settles O14: AND with the byte at the 16-bit address plus Y. -/
theorem andAbsoluteYResult : Obligations.AndAbsoluteYResult := fun hhll s =>
  (and_exec_and_step (i := .andAbsY hhll) rfl (operandAt_eaAbsoluteY hhll s)).imp_right step_of_word

/-- Settles O15: AND with the byte at the zero-page sum, one level. -/
theorem andIndirectXResult : Obligations.AndIndirectXResult :=
  fun nn s => and_exec_and_step (i := .andIndX nn) rfl (operandAt_eaIndirectX nn s)

/-- Settles O16: AND with the byte at the pointer plus Y. -/
theorem andIndirectYResult : Obligations.AndIndirectYResult :=
  fun nn s => and_exec_and_step (i := .andIndY nn) rfl (operandAt_eaIndirectY nn s)

/-! ### The obligation: JMP -/

/-- Settles O17: PC becomes the operand itself. -/
theorem jmpAbsoluteResult : Obligations.JmpAbsoluteResult := fun hhll _ =>
  (exec_and_step (i := .jmpAbs hhll) jmpEffect_of_exec
    (fun h => jmpEffect_retire h rowJmpAbs)).imp_right step_of_word

end Sys2Proof.Machine
end

section
/-! PROOFS. The laws the spec derives of ADC and AND (`41_adc.md` R139, `42_and.md` R159,
`40_step_and_addressing.md` R116) and of the addressing modes (R111, R112). -/

namespace Sys2Proof.Machine

open Claims

/-! ### The sign bit -/

/-- Bit 7 of a byte says that its value is 128 or more (R21). -/
theorem getLsbD_seven (b : Byte) : b.getLsbD 7 = decide (128 ≤ b.toNat) :=
  BitVec.msb_eq_decide b

/-- The signed reading of a byte by its bit 7 (R21, R23). -/
theorem toInt_eq_toNat_sub (b : Byte) :
    b.toInt = (b.toNat : Int) - if b.getLsbD 7 = true then 256 else 0 := by
  rw [BitVec.toInt_eq_toNat_cond, getLsbD_seven]
  simp only [decide_eq_true_iff]
  omega

/-! ### Zero and negative -/

/-- Every ADC and AND leaves Z and N as `SetNZ` of A (R116, D7). -/
theorem exec_zero_negative {i : Instr} (hi : i.operation ≠ .jmp) {s t : State}
    (h : exec i s = .next t) :
    t.P.getLsbD 1 = decide (t.A.toNat = 0) ∧ t.P.getLsbD 7 = t.A.getLsbD 7 := by
  cases hop : i.operation with
  | adc =>
    have heffect := adcEffect_of_exec hop h
    exact ⟨heffect.zero, heffect.negative⟩
  | and =>
    have heffect := andEffect_of_exec hop h
    exact ⟨heffect.zero, heffect.negative⟩
  | jmp => exact absurd hop hi

/-! ### ADC -/

/-- `ADC #$nn` answers a state with the effect of adding nn. -/
theorem exec_adcImm (m : Byte) (s : State) :
    ∃ t, exec (.adcImm m) s = .next t ∧ AdcEffect m 2 s t := by
  obtain ⟨t, ht, heffect, -⟩ := (adcImmediateResult m s).1
  exact ⟨t, ht, heffect⟩

/-- Carry and result are the exact sum (R139 a). -/
theorem adcEffect_sum {m : Byte} {len : Nat} {s t : State} (h : AdcEffect m len s t) :
    256 * (t.P.getLsbD 0).toNat + t.A.toNat =
      s.A.toNat + m.toNat + (s.P.getLsbD 0).toNat := by
  have hA := s.A.isLt
  have hm := m.isLt
  have hc := (s.P.getLsbD 0).toNat_le
  rw [h.carry, h.result]
  by_cases hsum : s.A.toNat + m.toNat + (s.P.getLsbD 0).toNat > 255
  · rw [decide_eq_true hsum, Bool.toNat_true]; omega
  · rw [decide_eq_false hsum, Bool.toNat_false]; omega

/-- V says that the signed sum is no signed byte (R139 b). -/
theorem adcEffect_overflow_iff {m : Byte} {len : Nat} {s t : State} (h : AdcEffect m len s t) :
    t.P.getLsbD 6 = true ↔
      s.A.toInt + m.toInt + ((s.P.getLsbD 0).toNat : Int) < -128 ∨
      127 < s.A.toInt + m.toInt + ((s.P.getLsbD 0).toNat : Int) := by
  have hA := s.A.isLt
  have hm := m.isLt
  have hc := (s.P.getLsbD 0).toNat_le
  have hresult := h.result
  rw [h.overflow, toInt_eq_toNat_sub, toInt_eq_toNat_sub]
  simp only [getLsbD_seven, decide_eq_true_iff, ne_eq, decide_eq_decide]
  omega

/-- V in the closed form of R23. -/
theorem adcEffect_overflow_eq {m : Byte} {len : Nat} {s t : State} (h : AdcEffect m len s t) :
    t.P.getLsbD 6 = ((s.A ^^^ t.A) &&& (m ^^^ t.A)).getLsbD 7 := by
  rw [h.overflow, BitVec.getLsbD_and, BitVec.getLsbD_xor, BitVec.getLsbD_xor]
  cases s.A.getLsbD 7 <;> cases m.getLsbD 7 <;> cases t.A.getLsbD 7 <;> rfl

theorem adcResult_comm (a m : Byte) (c : Bool) : adcResult a m c = adcResult m a c := by
  rw [adcResult, adcResult, adcSum, adcSum, Nat.add_comm a.toNat]

theorem carryOf_comm (a m : Byte) (c : Bool) : carryOf a m c = carryOf m a c := by
  rw [carryOf, carryOf, adcSum, adcSum, Nat.add_comm a.toNat]

theorem overflowOf_comm (a m r : Byte) : overflowOf a m r = overflowOf m a r := by
  rw [overflowOf, overflowOf]
  cases a.getLsbD 7 <;> cases m.getLsbD 7 <;> rfl

theorem adcStatus_comm (a m p : Byte) : adcStatus a m p = adcStatus m a p := by
  rw [adcStatus, adcStatus, adcResult_comm, carryOf_comm, overflowOf_comm]

/-! ### AND -/

/-- `AND #$nn` answers a state with the effect of masking with nn, A being the bitwise AND. -/
theorem exec_andImm (m : Byte) (s : State) :
    ∃ t, exec (.andImm m) s = .next t ∧ AndEffect m 2 s t ∧ t.A = s.A &&& m := by
  obtain ⟨t, ht, heffect, -⟩ := (andImmediateResult m s).1
  exact ⟨t, ht, heffect, (exec_A_P_of_and rfl ht).1⟩

/-- A byte is 0 exactly when it has no 1 bit. -/
theorem toNat_eq_zero_iff_getLsbD (b : Byte) : b.toNat = 0 ↔ ∀ k, b.getLsbD k = false := by
  refine ⟨fun h k => ?_, fun h => ?_⟩
  · rw [BitVec.eq_of_toNat_eq (y := 0#8) h, BitVec.getLsbD_zero]
  · rw [BitVec.eq_of_getLsbD_eq (y := 0#8) fun k _ => (h k).trans BitVec.getLsbD_zero.symm]
    rfl

/-- A second AND with the same operand changes neither A nor P (R159 f). -/
theorem exec_andImm_twice {m : Byte} {s t : State} (h : exec (.andImm m) s = .next t) :
    ∃ u, exec (.andImm m) t = .next u ∧ u.A = t.A ∧ u.P = t.P := by
  obtain ⟨hA, -⟩ := exec_A_P_of_and rfl h
  rw [operandOf, operandImmediate] at hA
  have hidem : t.A &&& m = t.A := by rw [hA, BitVec.and_assoc, BitVec.and_self]
  have heffect := andEffect_of_exec rfl h
  obtain ⟨u, hu⟩ := exec_eq_next (.andImm m) t
  obtain ⟨huA, huP⟩ := exec_A_P_of_and rfl hu
  rw [operandOf, operandImmediate, hidem] at huA huP
  refine ⟨u, hu, huA, ?_⟩
  rw [huP]
  apply BitVec.eq_of_getLsbD_eq
  intro k _
  rw [andStatus_getLsbD]
  split
  · next hk => rw [hk, heffect.negative]; rfl
  · split
    · next hk => rw [hk, heffect.zero, zeroOf_eq_decide]
    · rfl

/-! ### The obligations -/

/-- Settles O32: Z and N are A's, and no byte is both 0 and 128 or more. -/
theorem zeroAndNegativeFollowTheResult : Obligations.ZeroAndNegativeFollowTheResult := by
  intro i s hi
  obtain ⟨t, ht⟩ := exec_eq_next i s
  obtain ⟨hzero, hnegative⟩ := exec_zero_negative hi ht
  refine ⟨t, ht, ?_⟩
  rw [hzero, hnegative, getLsbD_seven, decide_eq_true_iff, decide_eq_true_iff]
  exact ⟨.rfl, .rfl, by omega⟩

/-- Settles O33: carry and result are the two digits of the sum. -/
theorem adcResultAndCarryAreTheExactSum : Obligations.AdcResultAndCarryAreTheExactSum := by
  intro m s
  obtain ⟨t, ht, heffect⟩ := exec_adcImm m s
  exact ⟨t, ht, adcEffect_sum heffect⟩

/-- Settles O34: by the sign bits of the two operands and of the result. -/
theorem adcOverflowIsSignedOverflow : Obligations.AdcOverflowIsSignedOverflow := by
  intro m s
  obtain ⟨t, ht, heffect⟩ := exec_adcImm m s
  exact ⟨t, ht, adcEffect_overflow_iff heffect, adcEffect_overflow_eq heffect⟩

/-- Settles O35: result and status of `ADC_core` are symmetric in accumulator and operand. -/
theorem adcIsSymmetricInItsOperands : Obligations.AdcIsSymmetricInItsOperands := by
  intro a m s
  refine ⟨_, _, rfl, rfl, ?_⟩
  simp only [State.adcCore, operandImmediate, adcResult_comm a m, adcStatus_comm a m]

/-- Settles O36: by the exact sum of each of the two additions. -/
theorem twoByteAdditionChainsThroughCarry : Obligations.TwoByteAdditionChainsThroughCarry := by
  intro x y s u hlow hcarry
  obtain ⟨t, ht, hteffect⟩ := exec_adcImm (lowByte y) s
  refine ⟨t, ht, fun hhigh hchain => ?_⟩
  obtain ⟨v, hv, hveffect⟩ := exec_adcImm (highByte y) u
  have htsum := adcEffect_sum hteffect
  have hvsum := adcEffect_sum hveffect
  rw [hlow, hcarry, lowByte_toNat, Bool.toNat_false] at htsum
  rw [hhigh, hchain, highByte_toNat] at hvsum
  exact ⟨v, hv, by omega⟩

/-- Settles O37: A is the bitwise AND, and Z and N are A's. -/
theorem andLawsOfTheSpec : Obligations.AndLawsOfTheSpec := by
  intro m s
  obtain ⟨t, ht, heffect, hA⟩ := exec_andImm m s
  have hbit (k : Nat) : t.A.getLsbD k = (s.A.getLsbD k && m.getLsbD k) := by
    rw [hA, BitVec.getLsbD_and]
  have hzero : t.P.getLsbD 1 = true ↔ t.A.toNat = 0 := by rw [heffect.zero, decide_eq_true_iff]
  refine ⟨t, ht, ⟨?_, ?_⟩, fun k hk => ?_, ?_, ?_, ?_, ?_, exec_andImm_twice ht,
    heffect.otherBits 0 (by omega), heffect.otherBits 6 (by omega)⟩
  · rw [hA, BitVec.toNat_and]; exact Nat.and_le_left
  · rw [hA, BitVec.toNat_and]; exact Nat.and_le_right
  · rwa [hbit, Bool.and_eq_true] at hk
  · rw [heffect.negative, hbit]
  · simp only [hzero, toNat_eq_zero_iff_getLsbD, hbit, ← Bool.and_eq_true, Bool.not_eq_true]
  · rintro rfl
    have hA0 : t.A = 0 := by rw [hA]; exact BitVec.and_zero
    exact ⟨hA0, hzero.mpr (by rw [hA0]; rfl), by rw [heffect.negative, hA0]; rfl⟩
  · rintro rfl
    rw [hA]
    exact BitVec.and_allOnes

/-- Settles O38: the two modes have one effective address, and the rows declare the costs. -/
theorem indirectXDeliversTheZeroPageXOperand :
    Obligations.IndirectXDeliversTheZeroPageXOperand :=
  fun _ _ => ⟨rfl, rfl, rfl, rfl, rfl, rfl⟩

/-- Settles O39: the sum stays inside the zero page exactly when the pointer is not at 0xFF. -/
theorem pointerWrapReadingsDifferOnlyAtFF : Obligations.PointerWrapReadingsDifferOnlyAtFF := by
  intro za
  have hlt := za.isLt
  have hFF : za = 0xFF ↔ za.toNat = 255 := by rw [← BitVec.toNat_inj]; rfl
  refine ⟨?_, ?_, fun h => ?_⟩
  · rw [← BitVec.toNat_inj, pointerHighAddress, pointerHighAddress, zeroPageAddress_toNat,
      wrapAddress_toNat, ne_eq, hFF]
    omega
  · rintro rfl
    exact ⟨rfl, rfl⟩
  · rw [ne_eq, hFF] at h
    rw [pointerHighAddress, zeroPageAddress_toNat]
    omega

end Sys2Proof.Machine
end

section
/-! PROOFS. What a step depends on: the bytes it reads (`40_step_and_addressing.md` R113, R114), and
nothing of the inert state (`10_state.md` R13, R24 to R26, `30_encoding.md` R81). -/

namespace Sys2Proof.Machine

/-! ### What the fetch and the operand depend on -/

/-- Bytes from an address on depend on the reads at those addresses alone (R70). -/
theorem State.readBytes_congr {s s' : State} {addr n : Nat}
    (h : ∀ a ∈ addressesFrom addr n, s'.memRead a.toNat = s.memRead a.toNat) :
    s'.readBytes addr n = s.readBytes addr n := by
  induction n generalizing addr with
  | zero => rfl
  | succ n ih =>
    rw [addressesFrom, List.forall_mem_cons] at h
    obtain ⟨hhead, htail⟩ := h
    have hwrap (u : State) : u.memRead (wrapAddress addr).toNat = u.memRead addr :=
      u.memRead_congr_wrap (wrapAddress_of_address _)
    rw [hwrap, hwrap] at hhead
    rw [State.readBytes, State.readBytes, hhead, ih htail]

/-- The fetch depends on PC, the opcode byte and its definition's operand bytes (R73, R100). -/
theorem State.fetch_congr {s s' : State} (hpc : s'.PC = s.PC)
    (hop : s'.memRead s.PC.toNat = s.memRead s.PC.toNat)
    (hbytes : ∀ d, itable (s.memRead s.PC.toNat) = some d →
      s'.readBytes (s.PC.toNat + 1) d.mode.operandBytes =
        s.readBytes (s.PC.toNat + 1) d.mode.operandBytes) :
    s'.fetch = s.fetch := by
  have hfetch : s'.fetchBytes = s.fetchBytes := by
    rw [State.fetchBytes, State.fetchBytes, hpc, hop]
    cases ht : itable (s.memRead s.PC.toNat) with
    | none => rfl
    | some d => exact congrArg _ (hbytes d ht)
  rw [State.fetch, State.fetch, hfetch, hpc, hop]

/-- The operand byte depends on X, Y and the bytes the instruction reads (R103, R114). -/
theorem operandOf_congr {i : Instr} {s s' : State} (hx : s'.X = s.X) (hy : s'.Y = s.Y)
    (hreads : ∀ a ∈ dataReads i s, s'.memRead a.toNat = s.memRead a.toNat) :
    operandOf i s' = operandOf i s := by
  have hpointer (d8 : Byte)
      (h : ∀ a ∈ [zeroPageAddress d8.toNat, pointerHighAddress Config.ptrHiWrap d8,
        eaIndirectY d8 s], s'.memRead a.toNat = s.memRead a.toNat) :
      operandAt (eaIndirectY d8 s') s' = operandAt (eaIndirectY d8 s) s := by
    simp only [List.forall_mem_cons] at h
    obtain ⟨hlo, hhi, hea, -⟩ := h
    have haddress : eaIndirectY d8 s' = eaIndirectY d8 s := by
      rw [eaIndirectY, eaIndirectYWith, pointerAt, hlo, hhi, hy]
      rfl
    rw [operandAt, haddress, hea, operandAt]
  cases i with
  | adcImm _ | andImm _ | jmpAbs _ => rfl
  | adcIndY d8 | andIndY d8 => exact hpointer d8 hreads
  | adcZp _ | adcAbs _ | andZp _ | andAbs _ => exact hreads _ (.head _)
  | adcZpX _ | adcAbsX _ | adcIndX _ | andZpX _ | andAbsX _ | andIndX _ =>
    simp only [operandOf, eaZeropageX, eaAbsoluteX, eaIndirectX, operandAt, hx]
    exact hreads _ (.head _)
  | adcAbsY _ | andAbsY _ =>
    simp only [operandOf, eaAbsoluteY, operandAt, hy]
    exact hreads _ (.head _)

/-! ### Another memory in a state's place -/

theorem State.advance_with_mem (s : State) (m : Memory) (d : InstrDef) :
    State.advance { s with mem := m } d = { s.advance d with mem := m } := by
  rw [State.advance, State.advance]
  split <;> rfl

/-- With another memory that gives the same operand byte, an instruction does the same (R102, R44). -/
theorem exec_with_mem {i : Instr} {s t : State} {m : Memory}
    (hoperand : operandOf i { s with mem := m } = operandOf i s) (h : exec i s = .next t) :
    exec i { s with mem := m } = .next { t with mem := m } := by
  obtain ⟨hop, rfl⟩ | ⟨hop, rfl⟩ | ⟨_, rfl, rfl⟩ := exec_cases h
  · rw [exec_adc hop, hoperand, ← State.advance_with_mem]; rfl
  · rw [exec_and hop, hoperand, ← State.advance_with_mem]; rfl
  · rfl

end Sys2Proof.Machine

/-! ### Two states alike but for the inert state -/

namespace Sys2Proof.Claims

open Machine

/-- The carry, the one flag an instruction reads (R130), is the same in both. -/
theorem SameButInert.readFlag_C {s s' : State} (h : SameButInert s s') :
    readFlag .C s'.P = readFlag .C s.P :=
  h.flags 0 (.inl rfl)

/-- `ADC_core` keeps the relation, for the same operand byte (R130, D10). -/
theorem SameButInert.adcCore {s s' : State} (h : SameButInert s s') (m : Byte) :
    SameButInert (s.adcCore m) (s'.adcCore m) :=
  { h with
    a := by simp only [State.adcCore_A, h.a, h.readFlag_C]
    flags := fun k hk => by
      simp only [State.adcCore_P, adcStatus_getLsbD, h.a, h.readFlag_C, h.flags k hk] }

/-- `AND_core` keeps the relation, for the same operand byte (R150). -/
theorem SameButInert.andCore {s s' : State} (h : SameButInert s s') (m : Byte) :
    SameButInert (s.andCore m) (s'.andCore m) :=
  { h with
    a := by simp only [State.andCore_A, h.a]
    flags := fun k hk => by
      simp only [State.andCore_P, andStatus_getLsbD, h.a, h.flags k hk] }

theorem SameButInert.writePC {s s' : State} (h : SameButInert s s') (n : Nat) :
    SameButInert (s.writePC n) (s'.writePC n) :=
  { h with pc := rfl }

theorem SameButInert.advance {s s' : State} (h : SameButInert s s') (d : InstrDef) :
    SameButInert (s.advance d) (s'.advance d) := by
  rw [State.advance, State.advance]
  split
  · exact h
  · rw [h.pc]
    exact h.writePC _

theorem SameButInert.retire {s s' : State} (h : SameButInert s s') (d : InstrDef) :
    SameButInert (s.retire d) (s'.retire d) :=
  { h with }

theorem SameButInert.takeDecodeError {s s' : State} (h : SameButInert s s') (op : Byte) :
    SameButInert (s.takeDecodeError op) (s'.takeDecodeError op) :=
  { h with
    halted := rfl
    raised := by rw [State.takeDecodeError_raised, State.takeDecodeError_raised, h.pc] }

theorem SameButInert.memRead_eq {s s' : State} (h : SameButInert s s') (addr : Nat) :
    s'.memRead addr = s.memRead addr :=
  State.memRead_congr h.mem addr

theorem SameButInert.fetch_eq {s s' : State} (h : SameButInert s s') : s'.fetch = s.fetch :=
  State.fetch_congr h.pc (h.memRead_eq _) fun _ _ => State.readBytes_congr fun _ _ => h.memRead_eq _

/-- Every instruction keeps the relation (R13, R24 to R26). -/
theorem SameButInert.exec_next {s s' t : State} (h : SameButInert s s') {i : Instr}
    (ht : exec i s = .next t) : ∃ t', exec i s' = .next t' ∧ SameButInert t t' := by
  have hoperand : operandOf i s' = operandOf i s :=
    operandOf_congr h.x h.y fun _ _ => h.memRead_eq _
  obtain ⟨hop, rfl⟩ | ⟨hop, rfl⟩ | ⟨abs16, rfl, rfl⟩ := exec_cases ht
  · exact ⟨_, exec_adc hop s', hoperand ▸ (h.adcCore _).advance i.row⟩
  · exact ⟨_, exec_and hop s', hoperand ▸ (h.andCore _).advance i.row⟩
  · exact ⟨_, exec_jmp abs16 s', h.writePC _⟩

end Sys2Proof.Claims

/-! ### The obligations -/

namespace Sys2Proof.Machine

open Claims

/-- Settles O40: the fetch and the operand byte are the same with the other memory, and no instruction
writes memory. -/
theorem stepDependsOnlyOnTheBytesItReads : Obligations.StepDependsOnlyOnTheBytesItReads := by
  intro s t m hreads h
  have hread (a : Address) (ha : a ∈ stepReads s) :
      State.memRead { s with mem := m } a.toNat = s.memRead a.toNat := by
    rw [State.memRead, State.memRead, wrapAddress_of_address]
    exact hreads a ha
  obtain ⟨hhalted, rfl⟩ | ⟨hrun, hundef, rfl⟩ | ⟨hrun, i, u, hi, hrow, hu, rfl⟩ := step_cases h
  · exact step_of_halted hhalted
  · have hop : State.memRead { s with mem := m } s.PC.toNat = s.memRead s.PC.toNat := by
      refine hread s.PC ?_
      rw [stepReads_of_undefined hrun hundef]
      exact .head _
    have hstep := step_of_undefined (s := { s with mem := m }) hrun (by rw [hop, hundef])
    rw [hstep, hop]
    rfl
  · rw [stepReads_of_fetch hrun hi] at hread
    simp only [List.forall_mem_cons, List.forall_mem_append] at hread
    obtain ⟨hop, hbytes, hdata⟩ := hread
    have hfetch : State.fetch { s with mem := m } = s.fetch := by
      refine State.fetch_congr rfl hop fun d hd => State.readBytes_congr ?_
      rw [hrow, Option.some.injEq] at hd
      rwa [← hd, i.row_mode]
    have hoperand : operandOf i { s with mem := m } = operandOf i s :=
      operandOf_congr rfl rfl hdata
    exact step_of_fetch (s := { s with mem := m }) hrun (hfetch.trans hi)
      (exec_with_mem hoperand hu)

/-- Settles O41: fetch and operand depend on nothing inert, and each operation keeps the relation. -/
theorem inertStateHasNoInfluence : Obligations.InertStateHasNoInfluence := by
  intro s s' t hsame h
  obtain ⟨hhalted, rfl⟩ | ⟨hrun, hundef, rfl⟩ | ⟨hrun, i, u, hi, -, hu, rfl⟩ := step_cases h
  · exact ⟨s', step_of_halted (hsame.halted.trans hhalted), hsame⟩
  · have hop : s'.memRead s'.PC.toNat = s.memRead s.PC.toNat := by rw [hsame.pc, hsame.memRead_eq]
    have hstep := step_of_undefined (hsame.halted.trans hrun) (by rw [hop, hundef])
    exact ⟨_, hstep, hop ▸ hsame.takeDecodeError _⟩
  · obtain ⟨u', hu', hsame'⟩ := hsame.exec_next hu
    exact ⟨_, step_of_fetch (hsame.halted.trans hrun) (hsame.fetch_eq.trans hi) hu',
      hsame'.retire i.row⟩

end Sys2Proof.Machine
end

section
/-! PROOFS. Reset and launch (`10_state.md` section 8, `70_reset_and_hazards.md` section 1), and the
host's access to memory (`20_memory.md` R40, R45, R57). -/

namespace Sys2Proof.Machine

open Claims

/-! ### The canonical form of memory (log 3) -/

/-- Every host action keeps the canonical form of memory. -/
theorem hostAct_mem_wf (a : HostAction) {s : State} (h : s.mem.wf = true) :
    (hostAct a s).mem.wf = true := by
  cases a with
  | writeReg r v => rw [hostAct, State.writeReg_mem]; exact h
  | writePC n => exact h
  | writeByte addr v => exact State.memWrite_wf addr v h
  | recreateEngine => exact h

/-- A whole image is held in canonical form (R37). -/
theorem Memory.ofImage_wf (image : Nat → Byte) : (Memory.ofImage image).wf = true :=
  Memory.ofImageFrom_wf image Config.memSize 0 (Nat.zero_add _).le

/-- Every byte of a launched machine is the image's (R37, R210). -/
theorem State.launch_memRead (image : Nat → Byte) (a : Nat) :
    (State.launch image).memRead a = image (a % 65536) := by
  have hget : (Memory.ofImage image).get (a % 65536) = some (image (a % 65536)) :=
    Memory.get_ofImageFrom image Config.memSize 0 _ (Nat.zero_le _)
      (by rw [Config.memSize]; omega)
  rw [State.memRead, wrapAddress_toNat, Memory.read, State.launch, hget]
  rfl

/-! ### Consecutive bytes -/

/-- The bytes read from an address on, one by one (R41, R70). -/
theorem State.getElem?_readBytes (s : State) {addr n k : Nat} (hk : k < n) :
    (s.readBytes addr n)[k]? = some (s.memRead (addr + k)) := by
  induction n generalizing addr k with
  | zero => omega
  | succ n ih =>
    cases k with
    | zero => rfl
    | succ k =>
      rw [State.readBytes, List.getElem?_cons_succ, ih (by omega)]
      congr 2
      omega

/-- Bytes that are read one by one are the bytes read. -/
theorem State.readBytes_eq {s : State} {addr : Nat} {bytes : List Byte}
    (h : ∀ k b, bytes[k]? = some b → s.memRead (addr + k) = b) :
    s.readBytes addr bytes.length = bytes := by
  apply List.ext_getElem?
  intro k
  by_cases hk : k < bytes.length
  · rw [s.getElem?_readBytes hk, List.getElem?_eq_getElem hk,
      h k _ (List.getElem?_eq_getElem hk)]
  · rw [List.getElem?_eq_none (by rw [State.readBytes_length]; omega),
      List.getElem?_eq_none (by omega)]

/-! ### What the host writes -/

/-- The host's writes change memory alone (R45). -/
theorem hostWrites_eq_with_mem (addr : Nat) (bytes : List Byte) (s : State) :
    hostWrites addr bytes s = { s with mem := (hostWrites addr bytes s).mem } := by
  induction bytes generalizing addr s with
  | nil => rfl
  | cons b bs ih => rw [hostWrites, ih]; rfl

/-- The host's writes change no byte outside the addresses written (R44, R45). -/
theorem hostWrites_memRead_of_ne {addr a : Nat} {bytes : List Byte} {s : State}
    (h : ∀ k, k < bytes.length → a % 65536 ≠ (addr + k) % 65536) :
    (hostWrites addr bytes s).memRead a = s.memRead a := by
  induction bytes generalizing addr s with
  | nil => rfl
  | cons b bs ih =>
    rw [List.length_cons] at h
    rw [hostWrites, ih fun k hk => ?_, hostAct, State.memRead_memWrite,
      if_neg (by simpa using h 0 (Nat.succ_pos _))]
    have hnext := h (k + 1) (Nat.succ_lt_succ hk)
    rwa [Nat.add_right_comm]

/-- The bytes the host writes are there, if they do not run once around the address space (R41, R45). -/
theorem hostWrites_memRead {addr : Nat} {bytes : List Byte} {s : State}
    (hlength : bytes.length ≤ 65536) {k : Nat} {b : Byte} (hk : bytes[k]? = some b) :
    (hostWrites addr bytes s).memRead (addr + k) = b := by
  induction bytes generalizing addr s k with
  | nil => simp at hk
  | cons c bs ih =>
    rw [List.length_cons] at hlength
    cases k with
    | zero =>
      rw [List.getElem?_cons_zero, Option.some.injEq] at hk
      rw [hostWrites, hostWrites_memRead_of_ne (by intros; omega), hostAct,
        State.memRead_memWrite, if_pos (by rw [Nat.add_zero]), BitVec.ofNat_toNat,
        BitVec.setWidth_eq, hk]
    | succ k =>
      rw [List.getElem?_cons_succ] at hk
      rw [hostWrites, show addr + (k + 1) = addr + 1 + k by omega]
      exact ih (by omega) hk

theorem encode_length_le (i : Instr) : (encode i).length ≤ 3 := by
  rw [encode, List.length_cons, i.operandField_length]
  cases i.mode <;> decide

/-- An instruction the host writes at PC stands there (R45, R57). -/
theorem readyAt_hostWrites {s : State} (hrun : s.HALTED = false) (i : Instr) :
    ReadyAt (hostWrites s.PC.toNat (encode i) s) (encode i) := by
  have hlength := encode_length_le i
  have hwrites := hostWrites_eq_with_mem s.PC.toNat (encode i) s
  have hpc : (hostWrites s.PC.toNat (encode i) s).PC = s.PC := by rw [hwrites]
  refine ⟨by rw [hwrites]; exact hrun, ?_⟩
  rw [hpc]
  exact State.readBytes_eq fun k b hk => hostWrites_memRead (by omega) hk

/-- A host's write over the operand byte at PC+1 leaves the opcode (R57). -/
theorem readyAt_writeByte_operand {s : State} {op nn : Byte} (h : ReadyAt s [op, nn]) (v : Byte) :
    ReadyAt (hostAct (.writeByte (s.PC.toNat + 1) v.toNat) s) [op, v] := by
  obtain ⟨hrun, hbytes⟩ := h
  simp only [List.length_cons, List.length_nil, State.readBytes, List.cons.injEq] at hbytes
  obtain ⟨hop, -⟩ := hbytes
  refine ⟨hrun, ?_⟩
  simp only [hostAct, List.length_cons, List.length_nil, State.readBytes, State.memWrite_PC,
    State.memRead_memWrite, if_true, BitVec.ofNat_toNat, BitVec.setWidth_eq]
  rw [if_neg (by omega), hop]

/-! ### The obligations -/

/-- Settles O19: the fields of the reset state. -/
theorem resetClearsTheRegisterFile : Obligations.ResetClearsTheRegisterFile := by
  have hreset (r : Reg) : State.reset.readReg r = 0 := by cases r <;> rfl
  have hlaunch (image : Nat → Byte) (r : Reg) :
      (State.launch image).readReg r = State.reset.readReg r := by cases r <;> rfl
  exact ⟨hreset, rfl, fun image r => ⟨(hlaunch image r).trans (hreset r), rfl⟩⟩

/-- Settles O20: nothing is listed at reset, and at launch every byte of the image is. -/
theorem launchTakesEveryMemoryImage : Obligations.LaunchTakesEveryMemoryImage :=
  ⟨State.reset_memRead, fun image => ⟨Memory.ofImage_wf image, State.launch_memRead image⟩⟩

/-- Settles O28: no fault is recorded at reset, and an image is held in canonical form. -/
theorem resetMeetsTheInvariant : Obligations.ResetMeetsTheInvariant :=
  ⟨⟨rfl, rfl, nofun⟩, fun image => ⟨Memory.ofImage_wf image, rfl, nofun⟩⟩

/-- Settles O55: re-creation is the reset state with the memory there was. -/
theorem reCreationKeepsMemoryAndClearsTheRest :
    Obligations.ReCreationKeepsMemoryAndClearsTheRest :=
  fun _ => rfl

/-- Settles O53: by induction over the session, no step storing anything. -/
theorem hostActionsKeepMemoryCanonical : Obligations.HostActionsKeepMemoryCanonical := by
  intro es s t hs h
  exact session_keeps (Q := fun u => u.mem.wf = true) (fun hu hwf => step_mem hu ▸ hwf)
    (fun a _ _ => hostAct_mem_wf a) h hs

/-- Settles O54: what is known at an address is what a read there gives. -/
theorem equalReadsAreEqualMemories : Obligations.EqualReadsAreEqualMemories := by
  intro s t hs ht hknown hread
  refine Memory.ext_from hs ht fun a => ?_
  by_cases ha : a < Config.memSize
  · have hsame := hknown a
    cases hsa : s.mem.get a with
    | none =>
      cases hta : t.mem.get a with
      | none => rfl
      | some w => rw [hsa, hta] at hsame; cases hsame
    | some v =>
      cases hta : t.mem.get a with
      | none => rw [hsa, hta] at hsame; cases hsame
      | some w => rw [← State.memRead_of_get ha hsa, ← State.memRead_of_get ha hta, hread]
  · rw [Memory.get_of_memSize_le (by omega) hs, Memory.get_of_memSize_le (by omega) ht]

/-- Settles O49: the bytes written stand at PC, so the next step is the instruction they encode. -/
theorem hostWriteIsSeenByTheNextFetch : Obligations.HostWriteIsSeenByTheNextFetch := by
  refine ⟨fun i s hrun => ?_, fun s nn v h => ?_⟩
  · have hlength := encode_length_le i
    obtain ⟨t, ht⟩ := exec_eq_next i (hostWrites s.PC.toNat (encode i) s)
    exact ⟨hostWrites_eq_with_mem _ _ _, fun k b hk => hostWrites_memRead (by omega) hk,
      fun a ha => hostWrites_memRead_of_ne ha, t, ht,
      step_of_readyAt (readyAt_hostWrites hrun i) ht⟩
  · obtain ⟨t, ht, heffect, -⟩ :=
      (adcImmediateResult v _).2 (readyAt_writeByte_operand h v)
    exact ⟨t, ht, heffect.result⟩

end Sys2Proof.Machine
end

section
/-! PROOFS. Runs of several steps (R100, R183, R216) and the Clock's frame (R227, R229). -/

namespace Sys2Proof.Machine

open Claims

/-! ### The runs of the core -/

/-- A run of one step more begins with a step (R100). -/
theorem run_succ {n : Nat} {s u : State} (h : step s = .next u) :
    Host.Core.run core (n + 1) s = Host.Core.run core n u := by
  have hcore : core.step s = .next u := h
  simp only [Host.Core.run, hcore]

/-- A run from a halted state stays there (R183, D12). -/
theorem run_of_halted {s : State} (h : s.HALTED = true) (n : Nat) :
    Host.Core.run core n s = .next s := by
  induction n with
  | zero => rfl
  | succ n ih => rw [run_succ (step_of_halted h), ih]

/-- A run that ends unhalted has counted each of its steps (R30, R100, R183). -/
theorem run_counts {n : Nat} {s t : State} (h : Host.Core.run core n s = .next t)
    (ht : t.HALTED = false) :
    t.INSTRET = s.INSTRET + n ∧ s.CYCLES + 2 * n ≤ t.CYCLES ∧ t.CYCLES ≤ s.CYCLES + 6 * n := by
  induction n generalizing s with
  | zero => cases h; simp
  | succ n ih =>
    obtain ⟨u, hu⟩ := step_eq_next s
    rw [run_succ hu] at h
    have hurun : u.HALTED = false := by
      by_contra hhalted
      rw [run_of_halted (eq_true_of_ne_false hhalted)] at h
      cases h
      exact hhalted ht
    obtain ⟨d, hd, hcycles, hinstret⟩ := step_counts hu hurun
    obtain ⟨hmin, hmax⟩ := cycles_of_mem_definitions hd
    obtain ⟨hinstret', hlow, hhigh⟩ := ih h
    omega

/-- A step from an unhalted state halts exactly when it raises `DecodeError` (R181). -/
theorem step_HALTED_iff_raisesNext {s t : State} (hs : s.HALTED = false)
    (h : step s = .next t) : t.HALTED = true ↔ RaisesNext s := by
  obtain ⟨u, hu, hiff, -⟩ := decodeErrorIsRaisedExactlyOnUndefinedOpcodes s hs
  rw [h] at hu
  cases hu
  rw [hiff, RaisesNext, and_iff_right hs]

/-! ### Safe runs (R216) -/

/-- A safe run starts unhalted (R216, log 13). -/
theorem safeFor_HALTED {n : Nat} {s : State} (h : safeFor n s) : s.HALTED = false := by
  cases n with
  | zero => exact h
  | succ n => exact h.1

/-- A safe run is one that ends unhalted, a halt being final (R183). -/
theorem safeFor_iff_run {n : Nat} {s : State} :
    safeFor n s ↔ ∃ t, Host.Core.run core n s = .next t ∧ t.HALTED = false := by
  induction n generalizing s with
  | zero => exact ⟨fun h => ⟨s, rfl, h⟩, fun ⟨t, ht, h⟩ => by cases ht; exact h⟩
  | succ n ih =>
    obtain ⟨u, hu⟩ := step_eq_next s
    rw [safeFor, run_succ hu, ← ih]
    constructor
    · rintro ⟨-, v, hv, hsafe⟩
      rw [hu] at hv
      cases hv
      exact hsafe
    · refine fun hsafe => ⟨?_, u, hu, hsafe⟩
      by_contra hhalted
      have hkept := step_keeps_HALTED hu (eq_true_of_ne_false hhalted)
      rw [safeFor_HALTED hsafe] at hkept
      cases hkept

/-- From an unhalted state a safe run is one none of whose steps raises `DecodeError` (R216). -/
theorem safeFor_iff_not_raisesNext {n : Nat} {s : State} (hs : s.HALTED = false) :
    safeFor n s ↔ ∀ k u, k < n → Host.Core.run core k s = .next u → ¬ RaisesNext u := by
  induction n generalizing s with
  | zero => exact ⟨fun _ _ _ hk => absurd hk (Nat.not_lt_zero _), fun _ => hs⟩
  | succ n ih =>
    obtain ⟨t, ht⟩ := step_eq_next s
    have hhalt := step_HALTED_iff_raisesNext hs ht
    constructor
    · rintro ⟨-, v, hv, hsafe⟩ k u hk hu
      rw [ht] at hv
      cases hv
      have htrun := safeFor_HALTED hsafe
      cases k with
      | zero =>
        cases hu
        rw [← hhalt, htrun]
        nofun
      | succ k =>
        rw [run_succ ht] at hu
        exact (ih htrun).mp hsafe k u (Nat.lt_of_succ_lt_succ hk) hu
    · intro hnone
      have htrun : t.HALTED = false := by
        rw [← Bool.not_eq_true, hhalt]
        exact hnone 0 s (Nat.succ_pos n) rfl
      refine ⟨hs, t, ht, (ih htrun).mpr fun k u hk hu => hnone (k + 1) u (Nat.succ_lt_succ hk) ?_⟩
      rw [run_succ ht, hu]

/-! ### The Clock -/

/-- The step requests of a frame are a run of the core (R227, R228). -/
theorem requestSteps_eq_run (n : Nat) (s : State) : requestSteps n s = Host.Core.run core n s := by
  induction n generalizing s with
  | zero => rfl
  | succ n ih =>
    obtain ⟨t, ht⟩ := step_eq_next s
    rw [requestSteps, ht, run_succ ht]
    exact ih t

/-! ### The obligations -/

/-- Settles O24: by induction over the requests, each answering the state itself. -/
theorem haltedEngineNeverChanges : Obligations.HaltedEngineNeverChanges := by
  intro n s h
  exact ⟨by rw [stepReads, if_pos h], run_of_halted h n⟩

/-- Settles O56: by induction over the run, each step that leaves the engine unhalted being counted. -/
theorem runCountsOneInstructionPerStep : Obligations.RunCountsOneInstructionPerStep :=
  fun _ _ _ => run_counts

/-- Settles O57: by induction over the run, a halt being final. -/
theorem safeRunIsOneThatDoesNotEndHalted : Obligations.SafeRunIsOneThatDoesNotEndHalted := by
  refine fun n s => ⟨safeFor_iff_run, safeFor_iff_not_raisesNext,
    fun hs => ⟨fun hsafe => ?_, fun k u hu => ?_⟩⟩
  · rw [safeFor_HALTED hsafe] at hs
    cases hs
  · rw [run_of_halted hs] at hu
    cases hu
    refine ⟨rfl, fun ⟨hrun, _⟩ => ?_⟩
    rw [hs] at hrun
    cases hrun

/-- Settles O58: a busy Clock begins no frame, and the requests of a frame are a run of the core. -/
theorem clockFrameIsAllOrNothing : Obligations.ClockFrameIsAllOrNothing := by
  refine fun c durationMs s => ⟨fun hbusy => ?_, fun hidle => ?_⟩
  · rw [Clock.frame, Clock.beginFrame, if_pos hbusy]
  · have hbegin : c.beginFrame = some { c with busy := true } := by
      rw [Clock.beginFrame, hidle]
      rfl
    rw [Clock.frame, hbegin]
    exact ⟨requestSteps_eq_run _ s, rfl, rfl⟩

end Sys2Proof.Machine
end
